-- ==== Sys2Proof/Word.lean ====
section
/-! DEFINITION. The word types of the machine (00_scope.md R4, R5): every quantity is unsigned. -/

namespace Sys2Proof

/-- A memory cell, a general register, a timer (R20). -/
abbrev Byte := BitVec 8

/-- The opcode, `PC`, `I` and a return address (R4). -/
abbrev Word := BitVec 16

/-- The index of a general register, 0..15, an X or Y field (R21, R61). -/
abbrev Reg := Fin 16

/-- The name VF of register 15 (R21). -/
abbrev vf : Reg := 15

end Sys2Proof
end

