-- ==== Sys2Proof/Syntax.lean ====
section
/-! DEFINITION. The instructions: one constructor per row of spec/opcode_table.json (30_encoding.md R64 to R70). -/

namespace Sys2Proof

/-- The 34 operations and the no-op (R73; 90_conflicts.md C1). Bits the decoder ignores (R62) are no operands.
`nop` keeps its unmapped word, so that it can be encoded again (log 5); its meaning does not look at it. -/
inductive Instr where
  /-- `CLS`, R90 -/
  | cls
  /-- `RET`, R91 -/
  | ret
  /-- `JP addr`, R92 -/
  | jp (nnn : BitVec 12)
  /-- `CALL addr`, R93 -/
  | call (nnn : BitVec 12)
  /-- `SE Vx, byte`, R100 -/
  | seByte (x : Reg) (nn : Byte)
  /-- `SNE Vx, byte`, R101 -/
  | sneByte (x : Reg) (nn : Byte)
  /-- `SE Vx, Vy`, R102 -/
  | seReg (x y : Reg)
  /-- `LD Vx, byte`, R111 -/
  | ldByte (x : Reg) (nn : Byte)
  /-- `ADD Vx, byte`, R112 -/
  | addByte (x : Reg) (nn : Byte)
  /-- `LD Vx, Vy`, R113 -/
  | ldReg (x y : Reg)
  /-- `OR Vx, Vy`, R114 -/
  | orReg (x y : Reg)
  /-- `AND Vx, Vy`, R115 -/
  | andReg (x y : Reg)
  /-- `XOR Vx, Vy`, R116 -/
  | xorReg (x y : Reg)
  /-- `ADD Vx, Vy`, R117 -/
  | addReg (x y : Reg)
  /-- `SUB Vx, Vy`, R118 -/
  | sub (x y : Reg)
  /-- `SHR Vx`, R119 -/
  | shr (x : Reg)
  /-- `SUBN Vx, Vy`, R120 -/
  | subn (x y : Reg)
  /-- `SHL Vx`, R121 -/
  | shl (x : Reg)
  /-- `SNE Vx, Vy`, R103 -/
  | sneReg (x y : Reg)
  /-- `LD I, addr`, R130 -/
  | ldI (nnn : BitVec 12)
  /-- `JP V0, addr`, R94 -/
  | jpV0 (nnn : BitVec 12)
  /-- `RND Vx, byte`, R140 -/
  | rnd (x : Reg) (nn : Byte)
  /-- `DRW Vx, Vy, nibble`, R145 -/
  | drw (x y : Reg) (n : BitVec 4)
  /-- `SKNP Vx`, R105 -/
  | sknp (x : Reg)
  /-- `SKP Vx`, R104 -/
  | skp (x : Reg)
  /-- `LD Vx, DT`, R155 -/
  | ldVxDt (x : Reg)
  /-- `LD Vx, K`, R150 -/
  | ldVxK (x : Reg)
  /-- `LD DT, Vx`, R156 -/
  | ldDtVx (x : Reg)
  /-- `LD ST, Vx`, R157 -/
  | ldStVx (x : Reg)
  /-- `ADD I, Vx`, R131 -/
  | addI (x : Reg)
  /-- `LD F, Vx`, R132 -/
  | ldF (x : Reg)
  /-- `LD B, Vx`, R133 -/
  | ldB (x : Reg)
  /-- `LD [I], Vx`, R134 -/
  | ldMemVx (x : Reg)
  /-- `LD Vx, [I]`, R135 -/
  | ldVxMem (x : Reg)
  /-- the documented no-op of an unmapped word, R85 -/
  | nop (word : Word)
  deriving DecidableEq, Repr

/-- The mnemonic of the instruction's row in spec/opcode_table.json. -/
def Instr.mnemonic : Instr → String
  | .cls => "CLS"
  | .ret => "RET"
  | .jp _ => "JP_addr"
  | .call _ => "CALL_addr"
  | .seByte _ _ => "SE_Vx__byte"
  | .sneByte _ _ => "SNE_Vx__byte"
  | .seReg _ _ => "SE_Vx__Vy"
  | .ldByte _ _ => "LD_Vx__byte"
  | .addByte _ _ => "ADD_Vx__byte"
  | .ldReg _ _ => "LD_Vx__Vy"
  | .orReg _ _ => "OR_Vx__Vy"
  | .andReg _ _ => "AND_Vx__Vy"
  | .xorReg _ _ => "XOR_Vx__Vy"
  | .addReg _ _ => "ADD_Vx__Vy"
  | .sub _ _ => "SUB_Vx__Vy"
  | .shr _ => "SHR_Vx"
  | .subn _ _ => "SUBN_Vx__Vy"
  | .shl _ => "SHL_Vx"
  | .sneReg _ _ => "SNE_Vx__Vy"
  | .ldI _ => "LD_I__addr"
  | .jpV0 _ => "JP_V0__addr"
  | .rnd _ _ => "RND_Vx__byte"
  | .drw _ _ _ => "DRW_Vx__Vy__nibble"
  | .sknp _ => "SKNP_Vx"
  | .skp _ => "SKP_Vx"
  | .ldVxDt _ => "LD_Vx__DT"
  | .ldVxK _ => "LD_Vx__K"
  | .ldDtVx _ => "LD_DT__Vx"
  | .ldStVx _ => "LD_ST__Vx"
  | .addI _ => "ADD_I__Vx"
  | .ldF _ => "LD_F__Vx"
  | .ldB _ => "LD_B__Vx"
  | .ldMemVx _ => "LD__I___Vx"
  | .ldVxMem _ => "LD_Vx___I"
  | .nop _ => "NOP"

end Sys2Proof
end

