-- ==== Sys2Proof/WellFormed.lean ====
section
/-! DEFINITION. Which terms of `Instr` stand for an instruction. The operand types admit exactly the spec's operand
values (30_encoding.md R63), so the one check left is that the word a `nop` keeps is unmapped (R70). -/

namespace Sys2Proof

/-- The unmapped words, family by family, as the table of R70 lists them. -/
def unmapped (w : Word) : Bool :=
  let key := w.extractLsb' 0 4
  let keyByte := w.extractLsb' 0 8
  if w.extractLsb' 12 4 = 0x0#4 then
    decide (key ∈ [0x1#4, 0x2#4, 0x3#4, 0x4#4, 0x5#4, 0x6#4, 0x7#4, 0x8#4, 0x9#4, 0xA#4, 0xB#4, 0xC#4, 0xD#4, 0xF#4])
  else if w.extractLsb' 12 4 = 0x8#4 then
    decide (key ∈ [0x8#4, 0x9#4, 0xA#4, 0xB#4, 0xC#4, 0xD#4, 0xF#4])
  else if w.extractLsb' 12 4 = 0xE#4 then
    decide (key ∈ [0x0#4, 0x2#4, 0x3#4, 0x4#4, 0x5#4, 0x6#4, 0x7#4, 0x8#4, 0x9#4, 0xA#4, 0xB#4, 0xC#4, 0xD#4, 0xF#4])
  else if w.extractLsb' 12 4 = 0xF#4 then
    decide (keyByte ∉ [0x07#8, 0x0A#8, 0x15#8, 0x18#8, 0x1E#8, 0x29#8, 0x33#8, 0x55#8, 0x65#8])
  else false

/-- Every instruction but a `nop` that carries a mapped word. -/
def Instr.wellFormed : Instr → Bool
  | .nop w => unmapped w
  | .cls | .ret | .jp _ | .call _ | .seByte _ _ | .sneByte _ _ | .seReg _ _ | .ldByte _ _ | .addByte _ _
  | .ldReg _ _ | .orReg _ _ | .andReg _ _ | .xorReg _ _ | .addReg _ _ | .sub _ _ | .shr _ | .subn _ _ | .shl _
  | .sneReg _ _ | .ldI _ | .jpV0 _ | .rnd _ _ | .drw _ _ _ | .sknp _ | .skp _ | .ldVxDt _ | .ldVxK _ | .ldDtVx _
  | .ldStVx _ | .addI _ | .ldF _ | .ldB _ | .ldMemVx _ | .ldVxMem _ => true

end Sys2Proof
end

