-- ==== Sys2Proof/Decode.lean ====
section
/-! DEFINITION. The decode tree (30_encoding.md R61 to R71), the encoder after it, and the opcode table as data. -/

namespace Sys2Proof

/-! ### Fields (R61) -/

/-- `F = op[15:12]`. -/
def fieldF (op : Word) : BitVec 4 := op.extractLsb' 12 4

/-- `X = op[11:8]`, a register index. -/
def fieldX (op : Word) : Reg := Fin.ofNat 16 (op.extractLsb' 8 4).toNat

/-- `Y = op[7:4]`, a register index. -/
def fieldY (op : Word) : Reg := Fin.ofNat 16 (op.extractLsb' 4 4).toNat

/-- `N = op[3:0]`. -/
def fieldN (op : Word) : BitVec 4 := op.extractLsb' 0 4

/-- `NN = op[7:0]`. -/
def fieldNN (op : Word) : Byte := op.extractLsb' 0 8

/-- `NNN = op[11:0]`. -/
def fieldNNN (op : Word) : BitVec 12 := op.extractLsb' 0 12

/-! ### The decode tree -/

/-- Family 0 (R65): the key is the low nibble, bits 11..4 are not examined. -/
def decodeFamily0 (op : Word) : Instr :=
  match fieldN op with
  | 0x0#4 => .cls
  | 0xE#4 => .ret
  | _ => .nop op

/-- Family 8 (R66): the key is the low nibble. -/
def decodeFamily8 (op : Word) : Instr :=
  match fieldN op with
  | 0x0#4 => .ldReg (fieldX op) (fieldY op)
  | 0x1#4 => .orReg (fieldX op) (fieldY op)
  | 0x2#4 => .andReg (fieldX op) (fieldY op)
  | 0x3#4 => .xorReg (fieldX op) (fieldY op)
  | 0x4#4 => .addReg (fieldX op) (fieldY op)
  | 0x5#4 => .sub (fieldX op) (fieldY op)
  | 0x6#4 => .shr (fieldX op)
  | 0x7#4 => .subn (fieldX op) (fieldY op)
  | 0xE#4 => .shl (fieldX op)
  | _ => .nop op

/-- Family E (R67): the key is the low nibble, bits 7..4 are not examined. -/
def decodeFamilyE (op : Word) : Instr :=
  match fieldN op with
  | 0xE#4 => .skp (fieldX op)
  | 0x1#4 => .sknp (fieldX op)
  | _ => .nop op

/-- Family F (R68): the key is the low byte. -/
def decodeFamilyF (op : Word) : Instr :=
  match fieldNN op with
  | 0x07#8 => .ldVxDt (fieldX op)
  | 0x0A#8 => .ldVxK (fieldX op)
  | 0x15#8 => .ldDtVx (fieldX op)
  | 0x18#8 => .ldStVx (fieldX op)
  | 0x1E#8 => .addI (fieldX op)
  | 0x29#8 => .ldF (fieldX op)
  | 0x33#8 => .ldB (fieldX op)
  | 0x55#8 => .ldMemVx (fieldX op)
  | 0x65#8 => .ldVxMem (fieldX op)
  | _ => .nop op

/-- The primary decode (R64, R69): total on the 16 bits alone (R71). -/
def decodeWord (op : Word) : Instr :=
  match fieldF op with
  | 0x0#4 => decodeFamily0 op
  | 0x1#4 => .jp (fieldNNN op)
  | 0x2#4 => .call (fieldNNN op)
  | 0x3#4 => .seByte (fieldX op) (fieldNN op)
  | 0x4#4 => .sneByte (fieldX op) (fieldNN op)
  | 0x5#4 => .seReg (fieldX op) (fieldY op)
  | 0x6#4 => .ldByte (fieldX op) (fieldNN op)
  | 0x7#4 => .addByte (fieldX op) (fieldNN op)
  | 0x8#4 => decodeFamily8 op
  | 0x9#4 => .sneReg (fieldX op) (fieldY op)
  | 0xA#4 => .ldI (fieldNNN op)
  | 0xB#4 => .jpV0 (fieldNNN op)
  | 0xC#4 => .rnd (fieldX op) (fieldNN op)
  | 0xD#4 => .drw (fieldX op) (fieldY op) (fieldN op)
  | 0xE#4 => decodeFamilyE op
  | _ => decodeFamilyF op

/-- The big-endian combination of two bytes: the first holds `op[15:8]` (20_memory.md R44). -/
def wordOfBytes (first second : Byte) : Word := first ++ second

/-- The byte at the lower address. -/
def firstByte (w : Word) : Byte := w.extractLsb' 8 8

/-- The byte at the higher address. -/
def secondByte (w : Word) : Byte := w.extractLsb' 0 8

/-- Why a byte sequence holds no instruction. -/
inductive DecodeError where
  /-- fewer than the two bytes every instruction has (R60): raised by `decode` only, never by `step`, whose fetch
  checks its bounds first; safe -/
  | truncated (present : Nat)
  deriving DecidableEq, Repr

/-- Read one instruction from a byte sequence, lowest address first, and give back the bytes after it (R60).
Every two bytes decode (R70). -/
def decode : List Byte → Except DecodeError (Instr × List Byte)
  | first :: second :: rest => .ok (decodeWord (wordOfBytes first second), rest)
  | few => .error (.truncated few.length)

/-! ### The encoder: the canonical words (R72) -/

/-- A register index as the four bits of its field. -/
def regBits (r : Reg) : BitVec 4 := BitVec.ofNat 4 r.val

/-- Format `A` (R62): family and address. -/
def wordA (f : BitVec 4) (nnn : BitVec 12) : Word := f ++ nnn

/-- Formats `XB` and `XKK` (R62): family, register, byte. -/
def wordXB (f : BitVec 4) (x : Reg) (nn : Byte) : Word := (f ++ regBits x : BitVec 8) ++ nn

/-- Formats `XY`, `XYK` and `XYN` (R62): family, two registers, nibble. -/
def wordXYN (f : BitVec 4) (x y : Reg) (n : BitVec 4) : Word :=
  (f ++ regBits x : BitVec 8) ++ (regBits y ++ n : BitVec 8)

/-- The word of an instruction: the canonical one of R72, ignored bits as its table shows them.
A `nop` is its own unmapped word (log 5). -/
def encode : Instr → Word
  | .cls => 0x00E0#16
  | .ret => 0x00EE#16
  | .jp nnn => wordA 0x1#4 nnn
  | .call nnn => wordA 0x2#4 nnn
  | .seByte x nn => wordXB 0x3#4 x nn
  | .sneByte x nn => wordXB 0x4#4 x nn
  | .seReg x y => wordXYN 0x5#4 x y 0x0#4
  | .ldByte x nn => wordXB 0x6#4 x nn
  | .addByte x nn => wordXB 0x7#4 x nn
  | .ldReg x y => wordXYN 0x8#4 x y 0x0#4
  | .orReg x y => wordXYN 0x8#4 x y 0x1#4
  | .andReg x y => wordXYN 0x8#4 x y 0x2#4
  | .xorReg x y => wordXYN 0x8#4 x y 0x3#4
  | .addReg x y => wordXYN 0x8#4 x y 0x4#4
  | .sub x y => wordXYN 0x8#4 x y 0x5#4
  | .shr x => wordXYN 0x8#4 x 0 0x6#4
  | .subn x y => wordXYN 0x8#4 x y 0x7#4
  | .shl x => wordXYN 0x8#4 x 0 0xE#4
  | .sneReg x y => wordXYN 0x9#4 x y 0x0#4
  | .ldI nnn => wordA 0xA#4 nnn
  | .jpV0 nnn => wordA 0xB#4 nnn
  | .rnd x nn => wordXB 0xC#4 x nn
  | .drw x y n => wordXYN 0xD#4 x y n
  | .sknp x => wordXB 0xE#4 x 0xA1#8
  | .skp x => wordXB 0xE#4 x 0x9E#8
  | .ldVxDt x => wordXB 0xF#4 x 0x07#8
  | .ldVxK x => wordXB 0xF#4 x 0x0A#8
  | .ldDtVx x => wordXB 0xF#4 x 0x15#8
  | .ldStVx x => wordXB 0xF#4 x 0x18#8
  | .addI x => wordXB 0xF#4 x 0x1E#8
  | .ldF x => wordXB 0xF#4 x 0x29#8
  | .ldB x => wordXB 0xF#4 x 0x33#8
  | .ldMemVx x => wordXB 0xF#4 x 0x55#8
  | .ldVxMem x => wordXB 0xF#4 x 0x65#8
  | .nop w => w

/-- The two bytes of an instruction as memory holds them (R44). -/
def encodeBytes (i : Instr) : List Byte := [firstByte (encode i), secondByte (encode i)]

/-! ### The opcode table as data (spec/opcode_table.json) -/

/-- One row: a word belongs to it when the masked word is `pattern`. -/
structure OpcodeRow where
  mnemonic : String
  mask : Word
  pattern : Word
  deriving DecidableEq, Repr

/-- The word matches the row. -/
def OpcodeRow.holds (r : OpcodeRow) (w : Word) : Bool := decide (w &&& r.mask = r.pattern)

/-- The rows of families 0 to 7. -/
def opcodeRowsLow : List OpcodeRow :=
  [⟨"CLS", 0xF00F#16, 0x0000#16⟩, ⟨"RET", 0xF00F#16, 0x000E#16⟩, ⟨"JP_addr", 0xF000#16, 0x1000#16⟩,
   ⟨"CALL_addr", 0xF000#16, 0x2000#16⟩, ⟨"SE_Vx__byte", 0xF000#16, 0x3000#16⟩,
   ⟨"SNE_Vx__byte", 0xF000#16, 0x4000#16⟩, ⟨"SE_Vx__Vy", 0xF000#16, 0x5000#16⟩,
   ⟨"LD_Vx__byte", 0xF000#16, 0x6000#16⟩, ⟨"ADD_Vx__byte", 0xF000#16, 0x7000#16⟩]

/-- The rows of families 8 and 9. -/
def opcodeRowsMid : List OpcodeRow :=
  [⟨"LD_Vx__Vy", 0xF00F#16, 0x8000#16⟩, ⟨"OR_Vx__Vy", 0xF00F#16, 0x8001#16⟩, ⟨"AND_Vx__Vy", 0xF00F#16, 0x8002#16⟩,
   ⟨"XOR_Vx__Vy", 0xF00F#16, 0x8003#16⟩, ⟨"ADD_Vx__Vy", 0xF00F#16, 0x8004#16⟩,
   ⟨"SUB_Vx__Vy", 0xF00F#16, 0x8005#16⟩, ⟨"SHR_Vx", 0xF00F#16, 0x8006#16⟩, ⟨"SUBN_Vx__Vy", 0xF00F#16, 0x8007#16⟩,
   ⟨"SHL_Vx", 0xF00F#16, 0x800E#16⟩, ⟨"SNE_Vx__Vy", 0xF000#16, 0x9000#16⟩]

/-- The rows of families A to F. -/
def opcodeRowsHigh : List OpcodeRow :=
  [⟨"LD_I__addr", 0xF000#16, 0xA000#16⟩, ⟨"JP_V0__addr", 0xF000#16, 0xB000#16⟩,
   ⟨"RND_Vx__byte", 0xF000#16, 0xC000#16⟩, ⟨"DRW_Vx__Vy__nibble", 0xF000#16, 0xD000#16⟩,
   ⟨"SKNP_Vx", 0xF00F#16, 0xE001#16⟩, ⟨"SKP_Vx", 0xF00F#16, 0xE00E#16⟩, ⟨"LD_Vx__DT", 0xF0FF#16, 0xF007#16⟩,
   ⟨"LD_Vx__K", 0xF0FF#16, 0xF00A#16⟩, ⟨"LD_DT__Vx", 0xF0FF#16, 0xF015#16⟩, ⟨"LD_ST__Vx", 0xF0FF#16, 0xF018#16⟩,
   ⟨"ADD_I__Vx", 0xF0FF#16, 0xF01E#16⟩, ⟨"LD_F__Vx", 0xF0FF#16, 0xF029#16⟩, ⟨"LD_B__Vx", 0xF0FF#16, 0xF033#16⟩,
   ⟨"LD__I___Vx", 0xF0FF#16, 0xF055#16⟩, ⟨"LD_Vx___I", 0xF0FF#16, 0xF065#16⟩]

/-- The 34 instruction rows; the fallback row NOP (mask 0) is taken when none of them matches (R71). -/
def opcodeTable : List OpcodeRow := opcodeRowsLow ++ opcodeRowsMid ++ opcodeRowsHigh

/-! ### The host's question -/

/-- The word of a table row whose `nbits` low bits are those of `w` and whose other bits are 0. -/
def tableWord (nbits w : Nat) : Word := BitVec.ofNat 16 (w % 2 ^ nbits)

/-- The instruction the decoder reads from a table word laid out in memory, high byte first (R44). -/
def decodeTableWord (nbits w : Nat) : Option Instr :=
  match decode [firstByte (tableWord nbits w), secondByte (tableWord nbits w)] with
  | .ok (i, _) => some i
  | .error _ => none

end Sys2Proof
end

