-- ==== Sys2Proof/Config.lean ====
section
/-! DEFINITION. What is fixed for the machine (00_scope.md R4), and the free values.
The parameter FONT of R4 stands in Machine/Memory.lean, beside the read that uses it. -/

namespace Sys2Proof.Config

/-- `MEM_SIZE`: addresses 0..4095 (R4, R40). -/
def memSize : Nat := 4096

/-- `FONT_BASE` (R4, R42). -/
def fontBase : Nat := 0x050

/-- `ROM_BASE` (R4, R52). -/
def romBase : Nat := 0x200

/-- The largest ROM, `MEM_SIZE - ROM_BASE` (R4, R52). -/
def romMax : Nat := memSize - romBase

/-- `PC_RESET` (R4, R33; the spec's decision D1). -/
def pcReset : Word := 0x0200#16

/-- FREE VALUE (DESIGN CHOICE, log 1): the byte the environment supplies to the `n`-th RND (45_random.md R141),
any byte under no law. It has no body, so nothing proved can rest on its values. -/
opaque randomByte : Nat → Byte

end Sys2Proof.Config
end

