-- ==== Sys2Proof/Machine/State.lean ====
section
/-! DEFINITION. The state of the core (10_state.md R20), its value after RESET (R33), and the reasons a step can stop. -/

namespace Sys2Proof.Machine

/-- The four faults of 60_exceptions.md R161; their codes are `Cause.code`. -/
inductive Cause where
  | addressOutOfRange
  | stackOverflow
  | stackUnderflow
  | keyIndexOutOfRange
  deriving DecidableEq, Repr

/-- The record the fault latch holds (R30, R161): `pc` is the address of the faulting instruction, `info` the
offending value. The spec gives `info` no width (log 6). -/
structure FaultRecord where
  cause : Cause
  pc : Word
  info : Nat
  deriving DecidableEq, Repr

/-- `mem` (R20, R40): the bytes that differ from the reset contents, addresses rising (log 4). -/
abbrev Memory := List Host.Cell

/-- `disp[y][x]` (R27): 32 rows of 64 pixels, `true` lit. -/
abbrev Display := Vector (Vector Bool 64) 32

/-- The complete state (R20). `draws` is the model's own: how many random bytes RND has drawn (log 2). -/
structure State where
  mem : Memory
  v : Vector Byte 16
  i : Word
  pc : Word
  stack : Vector Word 16
  sp : BitVec 8
  dt : Byte
  st : Byte
  disp : Display
  key : Vector Bool 16
  fault : Option FaultRecord
  draws : Nat
  deriving DecidableEq, Repr

/-- Why the model stops. A fault of the SPEC is no such stop: it is a next state with the latch set (R86, R163). -/
inductive Fault where
  /-- Raised by CALL and RET when `SP > 16`, a value R25 and R34 exclude and no run reaches: the stack entry the rule
  would use does not exist. Safe: the model stops where the spec says nothing (log 7). -/
  | stackPointerOutOfRange
  deriving DecidableEq, Repr

/-- Why the model has no meaning for an instruction. -/
inductive Refusal where
  /-- Raised by `exec` for an instruction with no meaning yet; at present by none. Safe. -/
  | notModelled (mnemonic : String)
  deriving DecidableEq, Repr

/-- The outcome of a meaning or of a step. -/
abbrev Result := Host.Outcome State Fault Refusal

/-- The state after RESET (R33, R190). Memory with nothing listed reads as the reset contents, zero and the font. -/
def State.reset : State where
  mem := []
  v := Vector.replicate 16 0x00#8
  i := 0x0000#16
  pc := Config.pcReset
  stack := Vector.replicate 16 0x0000#16
  sp := 0#8
  dt := 0x00#8
  st := 0x00#8
  disp := Vector.replicate 32 (Vector.replicate 64 false)
  key := Vector.replicate 16 false
  fault := none
  draws := 0

end Sys2Proof.Machine
end

