-- ==== Sys2Proof/Machine/Ops.lean ====
section
/-! DEFINITION. The named operations over registers, stack, display and keypad, and taking a fault. -/

namespace Sys2Proof.Machine

/-- Read `V[x]` (10_state.md R21). -/
def State.reg (s : State) (x : Reg) : Byte := s.v[x]

/-- Write `V[x]` (R21): none is hardwired. -/
def State.setReg (s : State) (x : Reg) (b : Byte) : State := { s with v := s.v.set x b }

/-- Read the pixel in row `y`, column `x` (R27). -/
def pixel (d : Display) (y : Fin 32) (x : Fin 64) : Bool := d[y][x]

/-- XOR a 1 bit into a pixel (46_draw.md R145). -/
def flipPixel (d : Display) (y : Fin 32) (x : Fin 64) : Display := d.set y (d[y].set x (!pixel d y x))

/-- The display with every pixel unlit (R90). -/
def blankDisplay : Display := Vector.replicate 32 (Vector.replicate 64 false)

/-- The state of a key (R28). -/
def State.pressed (s : State) (k : Fin 16) : Bool := s.key[k]

/-- The least pressed key, if any (47_input.md R150). -/
def State.leastPressed (s : State) : Option (Fin 16) := (List.finRange 16).find? (fun k => s.pressed k)

/-! ### The program counter -/

/-- Advance `PC` by 2: before execution (40_cycle.md R82), and once more by a taken skip (R106). -/
def State.advance (s : State) : State := { s with pc := s.pc + 2#16 }

/-- The address the executing instruction was fetched from: `PC` was advanced by 2 before execution (R82). -/
def State.pc0 (s : State) : Word := s.pc - 2#16

/-- A skip: `PC <- PC + 2` when the condition holds (R106). -/
def skipIf (c : Bool) (s : State) : Result := .next (if c then s.advance else s)

/-! ### Faults: entry, and the only way back (RESET, R165) -/

/-- The numeric codes of R161. -/
def Cause.code : Cause → Nat
  | .addressOutOfRange => 1
  | .stackOverflow => 2
  | .stackUnderflow => 3
  | .keyIndexOutOfRange => 4

/-- Fault entry (40_cycle.md R86, 60_exceptions.md R163): everything as at the start of the cycle, so `PC = pc0`, and
the latch set. Every condition is tested before any write, so there is nothing else to put back. -/
def takeFault (pc0 : Word) (c : Cause) (info : Nat) (s : State) : State :=
  { s with pc := pc0, fault := some { cause := c, pc := pc0, info := info } }

/-- `raise c(info)` inside an instruction, whose `PC` has been advanced. -/
def raise (c : Cause) (info : Nat) (s : State) : Result := .next (takeFault s.pc0 c info s)

/-- Go on only if the `n` bytes at `base` are all inside memory; else `AddressOutOfRange` before any write (R43). -/
def guardRange (base n : Nat) (s : State) (next : Result) : Result :=
  if outOfRange base n then raise .addressOutOfRange (offendingAddress base) s else next

/-- RESET: the whole state is rebuilt, whatever it was (70_reset_and_hazards.md R190). The count of draws, no element
of the spec's state, goes on, so that no random byte comes back after a RESET (log 2). -/
def hostReset (s : State) : State := { State.reset with draws := s.draws }

/-! ### The call stack (R25) -/

/-- Push the already advanced `PC` at `stack[SP]` and jump (41_control_flow.md R93), for `SP <= 15`. -/
def pushAndJump (s : State) (h : s.sp.toNat < 16) (target : Word) : State :=
  { s with stack := s.stack.set s.sp.toNat s.pc, sp := s.sp + 1#8, pc := target }

/-- Pop: decrement `SP` first, then take `stack[SP]`, which keeps its value (R91), for `1 <= SP <= 16`. -/
def popAndJump (s : State) (h : s.sp.toNat - 1 < 16) : State :=
  { s with sp := s.sp - 1#8, pc := s.stack[s.sp.toNat - 1] }

end Sys2Proof.Machine
end

