-- ==== Sys2Proof/Machine/Cycle.lean ====
section
/-! DEFINITION. The parts of a cycle around the instruction (40_cycle.md): fetch and tick. -/

namespace Sys2Proof.Machine

/-- The two bytes at `PC` and `PC+1`, big-endian (R81; 20_memory.md R44); any parity (R46). -/
def fetchedWord (s : State) : Word :=
  wordOfBytes (Memory.read s.mem s.pc.toNat) (Memory.read s.mem (s.pc.toNat + 1))

/-- The fetch: the opcode, or none when one of the two bytes lies above 4095 (R81). -/
def fetch (s : State) : Option Word := if outOfRange s.pc.toNat 2 then none else some (fetchedWord s)

/-- The fault of a failed fetch: `PC` has not been advanced (R81, R161). -/
def fetchFault (s : State) : State :=
  takeFault s.pc .addressOutOfRange (offendingAddress s.pc.toNat) s

/-- A timer after one tick: down by 1, never below 0 (R84). -/
def countDown (t : Byte) : Byte := if t = 0x00#8 then t else t - 0x01#8

/-- Both timers tick (R84, R167). -/
def tick (s : State) : State := { s with dt := countDown s.dt, st := countDown s.st }

/-- The end of a cycle: the tick, unless the cycle raised a fault (R84, R86). -/
def finishCycle : Result → Result
  | .next s => .next (if s.fault.isSome then s else tick s)
  | .fault r => .fault r
  | .refused r => .refused r

/-- A word laid out high byte first at `PC` (R44), where the next fetch reads it, and no fault latched, since a halted
core fetches nothing (R87). With `PC > 4094` no word can stand there and memory is left alone (log 11). -/
def placeWord (s : State) (w : Word) : State :=
  { s with
    mem := if outOfRange s.pc.toNat 2 then s.mem
      else Memory.writeBytes s.mem s.pc.toNat [firstByte w, secondByte w]
    fault := none }

end Sys2Proof.Machine
end

