-- ==== Sys2Proof/Machine/Operands.lean ====
section
/-! DEFINITION. Operand forms (30_encoding.md R63): every widening is a zero extension. -/

namespace Sys2Proof.Machine

/-- `zext_16(NNN)`. -/
def zextAddr (nnn : BitVec 12) : Word := nnn.setWidth 16

/-- `zext_16(V[x])`. -/
def zextByte (b : Byte) : Word := b.setWidth 16

/-- The target of JP V0: `NNN + V[0]`, not masked to 12 bits (41_control_flow.md R94). -/
def offsetTarget (nnn : BitVec 12) (s : State) : Word := zextAddr nnn + zextByte (s.reg 0)

/-- The address of a font glyph, on the whole byte (44_index_memory.md R132). -/
def glyphAddress (b : Byte) : Word := BitVec.ofNat 16 Config.fontBase + 5#16 * zextByte b

/-- The decimal digits of a byte: hundreds, tens, ones, in that order (R133). -/
def decimalDigits (b : Byte) : List Byte :=
  [BitVec.ofNat 8 (b.toNat / 100), BitVec.ofNat 8 (b.toNat / 10 % 10), BitVec.ofNat 8 (b.toNat % 10)]

/-- `V0, .., VX`: the registers of a block transfer, inclusive of VX (R134). -/
def blockRegs (s : State) (x : Reg) : List Byte := s.v.toList.take (x.val + 1)

/-- The key a register names, if it names one (42_conditional_skip.md R104). -/
def keyIndex (b : Byte) : Option (Fin 16) := if h : b.toNat < 16 then some ⟨b.toNat, h⟩ else none

/-- The display row of a sprite row: `(sy + row) mod 32` (46_draw.md R145). -/
def spriteY (sy : Byte) (row : Nat) : Fin 32 := Fin.ofNat 32 (sy.toNat + row)

/-- The display column of a sprite column: `(sx + col) mod 64` (R145). -/
def spriteX (sx : Byte) (col : Nat) : Fin 64 := Fin.ofNat 64 (sx.toNat + col)

/-- The sprite bit of a column: bit 7 is column 0 (R146). -/
def spriteBit (b : Byte) (col : Nat) : Bool := b.getLsbD (7 - col)

end Sys2Proof.Machine
end

