-- ==== Sys2Proof/Machine/Flags.lean ====
section
/-! DEFINITION. The flag in VF (10_state.md R22; 43_register_alu.md R110, R122). -/

namespace Sys2Proof.Machine

/-- `bit(c)`: the full byte 0x00 or 0x01 a flag write stores (R22). -/
def flagByte (c : Bool) : Byte := if c then 0x01#8 else 0x00#8

/-- ADD's carry: the exact sum exceeds 255 (R117). -/
def carry (a b : Byte) : Bool := decide (255 < a.toNat + b.toNat)

/-- SUB's and SUBN's flag: minuend strictly greater than subtrahend (R118, R120; 90_conflicts.md C6). -/
def greater (minuend subtrahend : Byte) : Bool := decide (subtrahend.toNat < minuend.toNat)

/-- SHR's flag: the bit shifted out at the low end (R119). -/
def lowBit (a : Byte) : Bool := a.getLsbD 0

/-- SHL's flag: the bit shifted out at the high end (R121). -/
def highBit (a : Byte) : Bool := a.getLsbD 7

/-- Write the result to `V[x]`, then the flag to VF: with `x = 15` the flag stays (R110). -/
def State.setRegFlag (s : State) (x : Reg) (result : Byte) (flag : Bool) : State :=
  (s.setReg x result).setReg vf (flagByte flag)

end Sys2Proof.Machine
end

