-- ==== Sys2Proof/Machine/Alu.lean ====
section
/-! DEFINITION. Register loads and arithmetic (43_register_alu.md). -/

namespace Sys2Proof.Machine

/-- LD Vx,byte, R111. -/
def execLdByte (x : Reg) (nn : Byte) (s : State) : Result := .next (s.setReg x nn)

/-- ADD Vx,byte, R112: no flag. -/
def execAddByte (x : Reg) (nn : Byte) (s : State) : Result := .next (s.setReg x (s.reg x + nn))

/-- LD Vx,Vy, R113. -/
def execLdReg (x y : Reg) (s : State) : Result := .next (s.setReg x (s.reg y))

/-- OR Vx,Vy, R114: VF is left alone. -/
def execOrReg (x y : Reg) (s : State) : Result := .next (s.setReg x (s.reg x ||| s.reg y))

/-- AND Vx,Vy, R115: VF is left alone. -/
def execAndReg (x y : Reg) (s : State) : Result := .next (s.setReg x (s.reg x &&& s.reg y))

/-- XOR Vx,Vy, R116: VF is left alone. -/
def execXorReg (x y : Reg) (s : State) : Result := .next (s.setReg x (s.reg x ^^^ s.reg y))

/-- ADD Vx,Vy, R117. -/
def execAddReg (x y : Reg) (s : State) : Result :=
  .next (s.setRegFlag x (s.reg x + s.reg y) (carry (s.reg x) (s.reg y)))

/-- SUB Vx,Vy, R118. -/
def execSub (x y : Reg) (s : State) : Result :=
  .next (s.setRegFlag x (s.reg x - s.reg y) (greater (s.reg x) (s.reg y)))

/-- SHR Vx, R119: shifts `V[x]` in place. -/
def execShr (x : Reg) (s : State) : Result := .next (s.setRegFlag x (s.reg x >>> 1) (lowBit (s.reg x)))

/-- SUBN Vx,Vy, R120: the minuend is `V[y]`. -/
def execSubn (x y : Reg) (s : State) : Result :=
  .next (s.setRegFlag x (s.reg y - s.reg x) (greater (s.reg y) (s.reg x)))

/-- SHL Vx, R121: shifts `V[x]` in place. -/
def execShl (x : Reg) (s : State) : Result := .next (s.setRegFlag x (s.reg x <<< 1) (highBit (s.reg x)))

end Sys2Proof.Machine
end

