-- ==== Sys2Proof/Machine/Control.lean ====
section
/-! DEFINITION. Control flow (41_control_flow.md) and the no-op (40_cycle.md R85). `PC` is already `pc0 + 2`. -/

namespace Sys2Proof.Machine

/-- CLS, R90. -/
def execCls (s : State) : Result := .next { s with disp := blankDisplay }

/-- RET, R91. `SP > 16` names no entry (log 7). -/
def execRet (s : State) : Result :=
  if s.sp = 0#8 then raise .stackUnderflow 0 s
  else if h : s.sp.toNat - 1 < 16 then .next (popAndJump s h)
  else .fault .stackPointerOutOfRange

/-- JP addr, R92. -/
def execJp (nnn : BitVec 12) (s : State) : Result := .next { s with pc := zextAddr nnn }

/-- CALL addr, R93. `SP > 16` names no entry (log 7). -/
def execCall (nnn : BitVec 12) (s : State) : Result :=
  if s.sp = 16#8 then raise .stackOverflow nnn.toNat s
  else if h : s.sp.toNat < 16 then .next (pushAndJump s h (zextAddr nnn))
  else .fault .stackPointerOutOfRange

/-- JP V0,addr, R94. -/
def execJpV0 (nnn : BitVec 12) (s : State) : Result := .next { s with pc := offsetTarget nnn s }

/-- NOP, R85. -/
def execNop (s : State) : Result := .next s

end Sys2Proof.Machine
end

