-- ==== Sys2Proof/Machine/Draw.lean ====
section
/-! DEFINITION. The draw instruction (46_draw.md): the spec's loop over rows and columns. -/

namespace Sys2Proof.Machine

/-- One sprite bit: a 1 flips its pixel, and collides if the pixel was lit (R145). The pair is display and collision. -/
def drawBit (b : Byte) (y : Fin 32) (sx : Byte) (acc : Display × Bool) (col : Nat) : Display × Bool :=
  if spriteBit b col then
    (flipPixel acc.1 y (spriteX sx col), acc.2 || pixel acc.1 y (spriteX sx col))
  else acc

/-- One sprite row: columns 0 to 7 (R145). -/
def drawRow (b : Byte) (y : Fin 32) (sx : Byte) (acc : Display × Bool) : Display × Bool :=
  (List.range 8).foldl (drawBit b y sx) acc

/-- The sprite from row `row` on, one byte a row (R145). -/
def drawSprite (sx sy : Byte) : List Byte → Nat → Display × Bool → Display × Bool
  | [], _, acc => acc
  | b :: bs, row, acc => drawSprite sx sy bs (row + 1) (drawRow b (spriteY sy row) sx acc)

/-- The display and collision flag after a draw of `n` rows at `I`; VF is reset, so the flag starts at 0 (R145). -/
def drawn (s : State) (x y : Reg) (n : BitVec 4) : Display × Bool :=
  drawSprite (s.reg x) (s.reg y) (Memory.readBytes s.mem s.i.toNat n.toNat) 0 (s.disp, false)

/-- DRW Vx,Vy,nibble, R145 to R148: coordinates are read before VF is written; `N = 0` reads nothing. -/
def execDrw (x y : Reg) (n : BitVec 4) (s : State) : Result :=
  guardRange s.i.toNat n.toNat s
    (.next { s.setReg vf (flagByte (drawn s x y n).2) with disp := (drawn s x y n).1 })

end Sys2Proof.Machine
end

