-- ==== Sys2Proof/Machine/Index.lean ====
section
/-! DEFINITION. Index register and memory instructions (44_index_memory.md). `I` is never changed by a transfer. -/

namespace Sys2Proof.Machine

/-- LD I,addr, R130. -/
def execLdI (nnn : BitVec 12) (s : State) : Result := .next { s with i := zextAddr nnn }

/-- ADD I,Vx, R131: modulo 65536, no flag. -/
def execAddI (x : Reg) (s : State) : Result := .next { s with i := s.i + zextByte (s.reg x) }

/-- LD F,Vx, R132. -/
def execLdF (x : Reg) (s : State) : Result := .next { s with i := glyphAddress (s.reg x) }

/-- Store bytes at `I` upwards, all or none (R43). -/
def storeAtI (bs : List Byte) (s : State) : Result :=
  guardRange s.i.toNat bs.length s (.next { s with mem := Memory.writeBytes s.mem s.i.toNat bs })

/-- LD B,Vx, R133. -/
def execLdB (x : Reg) (s : State) : Result := storeAtI (decimalDigits (s.reg x)) s

/-- LD [I],Vx, R134. -/
def execLdMemVx (x : Reg) (s : State) : Result := storeAtI (blockRegs s x) s

/-- The registers after a block load: `V[k]` from `I + k` for `k <= x`, the others kept (R135). -/
def loadedRegs (s : State) (x : Reg) : Vector Byte 16 :=
  Vector.ofFn fun k : Fin 16 => if k ≤ x then Memory.read s.mem (s.i.toNat + k.val) else s.reg k

/-- LD Vx,[I], R135. -/
def execLdVxMem (x : Reg) (s : State) : Result :=
  guardRange s.i.toNat (x.val + 1) s (.next { s with v := loadedRegs s x })

end Sys2Proof.Machine
end

