-- ==== Sys2Proof/Machine/Input.lean ====
section
/-! DEFINITION. The wait-for-key instruction (47_input.md): polling, no suspension. -/

namespace Sys2Proof.Machine

/-- LD Vx,K, R150, R151: no key down rewinds `PC` to `pc0`; else the least pressed key's number. -/
def execLdVxK (x : Reg) (s : State) : Result :=
  match s.leastPressed with
  | none => .next { s with pc := s.pc0 }
  | some k => .next (s.setReg x (BitVec.ofNat 8 k.val))

end Sys2Proof.Machine
end

