-- ==== Sys2Proof/Machine/Random.lean ====
section
/-! DEFINITION. The random instruction (45_random.md). -/

namespace Sys2Proof.Machine

/-- The byte the environment supplies to this draw: a free value (R141, log 1). -/
def State.drawnByte (s : State) : Byte := Config.randomByte s.draws

/-- RND Vx,byte, R140: a bitwise AND. The draw is counted, so that the next one is a fresh value (log 2). -/
def execRnd (x : Reg) (nn : Byte) (s : State) : Result :=
  .next { s.setReg x (s.drawnByte &&& nn) with draws := s.draws + 1 }

end Sys2Proof.Machine
end

