-- ==== Sys2Proof/Machine/Skip.lean ====
section
/-! DEFINITION. Conditional skips (42_conditional_skip.md). -/

namespace Sys2Proof.Machine

/-- SE Vx,byte, R100. -/
def execSeByte (x : Reg) (nn : Byte) (s : State) : Result := skipIf (decide (s.reg x = nn)) s

/-- SNE Vx,byte, R101. -/
def execSneByte (x : Reg) (nn : Byte) (s : State) : Result := skipIf (decide (s.reg x ≠ nn)) s

/-- SE Vx,Vy, R102. -/
def execSeReg (x y : Reg) (s : State) : Result := skipIf (decide (s.reg x = s.reg y)) s

/-- SNE Vx,Vy, R103. -/
def execSneReg (x y : Reg) (s : State) : Result := skipIf (decide (s.reg x ≠ s.reg y)) s

/-- A skip on the key that `V[x]` names, taken when its state is `down` (R104, R105). -/
def skipOnKey (x : Reg) (down : Bool) (s : State) : Result :=
  match keyIndex (s.reg x) with
  | some k => skipIf (s.pressed k == down) s
  | none => raise .keyIndexOutOfRange (s.reg x).toNat s

/-- SKP Vx, R104. -/
def execSkp (x : Reg) (s : State) : Result := skipOnKey x true s

/-- SKNP Vx, R105. -/
def execSknp (x : Reg) (s : State) : Result := skipOnKey x false s

end Sys2Proof.Machine
end

