-- ==== Sys2Proof/Machine/Timers.lean ====
section
/-! DEFINITION. Timer instructions (48_timers.md). The countdown is `tick` in Machine/Cycle.lean. -/

namespace Sys2Proof.Machine

/-- LD Vx,DT, R155: before this cycle's tick. -/
def execLdVxDt (x : Reg) (s : State) : Result := .next (s.setReg x s.dt)

/-- LD DT,Vx, R156. -/
def execLdDtVx (x : Reg) (s : State) : Result := .next { s with dt := s.reg x }

/-- LD ST,Vx, R157. -/
def execLdStVx (x : Reg) (s : State) : Result := .next { s with st := s.reg x }

end Sys2Proof.Machine
end

