-- ==== Sys2Proof/Machine/Step.lean ====
section
/-! DEFINITION. `STEP`, the core's only step (40_cycle.md R80). -/

namespace Sys2Proof.Machine

/-- One cycle: halted, nothing changes (R87); else fetch (R81), advance (R82), decode and execute (R83), tick (R84). -/
def step (s : State) : Host.Outcome State Fault Refusal :=
  match s.fault with
  | some _ => .next s
  | none =>
    match fetch s with
    | none => .next (fetchFault s)
    | some op => finishCycle (exec (decodeWord op) s.advance)

/-- The state with a table word where the next fetch reads it. -/
def State.withFetchWord (s : State) (nbits w : Nat) : State := placeWord s (tableWord nbits w)

end Sys2Proof.Machine
end

