-- ==== Sys2Proof/Machine/HostOps.lean ====
section
/-! DEFINITION. The host's operations (60_exceptions.md R170), which happen only between two cycles (00_scope.md R8,
log 9). RESET is `hostReset` in Machine/Ops.lean; reads have no effect and are the fields of State. -/

namespace Sys2Proof.Machine

/-- What LOAD reports to the host (20_memory.md R52, 60_exceptions.md R177). -/
inductive LoadResult where
  | loaded (s : State)
  /-- the failure `RomTooLarge`: nothing is written and no fault is latched -/
  | romTooLarge
  deriving DecidableEq, Repr

/-- `LOAD(bytes)`, R52: at 0x200, verbatim, nothing else touched; refused above 3584 bytes. -/
def hostLoad (bytes : List Byte) (s : State) : LoadResult :=
  if bytes.length ≤ Config.romMax then
    .loaded { s with mem := Memory.writeBytes s.mem Config.romBase bytes }
  else .romTooLarge

/-- The state after a LOAD, accepted or not (R52). -/
def afterLoad (bytes : List Byte) (s : State) : State :=
  match hostLoad bytes s with
  | .loaded t => t
  | .romTooLarge => s

/-- `KEY_WRITE(k, b)`, R171. -/
def hostKeyWrite (k : Fin 16) (b : Bool) (s : State) : State := { s with key := s.key.set k b }

end Sys2Proof.Machine
end

