-- ==== Sys2Proof/Safety.lean ====
section
/-! DEFINITION. The terms claims use: what may change, who reads and writes which register, and the states the core
and the host can reach. -/

namespace Sys2Proof.Machine

/-! ### What a step may change: everything else is equal -/

/-- The two states read alike at every address of memory. -/
def SameMemory (s t : State) : Prop := ∀ a : Nat, Memory.read t.mem a = Memory.read s.mem a

/-- They read alike at every address outside the `n` bytes at `base`. -/
def SameMemoryOutside (base n : Nat) (s t : State) : Prop :=
  ∀ a : Nat, a < base ∨ base + n ≤ a → Memory.read t.mem a = Memory.read s.mem a

/-- At most general registers differ. -/
def RegsOnly (s t : State) : Prop := t = { s with v := t.v }

/-- At most the program counter differs. -/
def PcOnly (s t : State) : Prop := t = { s with pc := t.pc }

/-- At most the index register differs. -/
def IndexOnly (s t : State) : Prop := t = { s with i := t.i }

/-- At most memory differs. -/
def MemoryOnly (s t : State) : Prop := t = { s with mem := t.mem }

/-- At most the display differs. -/
def DisplayOnly (s t : State) : Prop := t = { s with disp := t.disp }

/-- At most the call stack, its pointer and the program counter differ. -/
def StackOnly (s t : State) : Prop := t = { s with stack := t.stack, sp := t.sp, pc := t.pc }

/-- At most the fault latch, and the program counter put back to `pc0`, differ (40_cycle.md R86). -/
def FaultTaken (s t : State) (c : Cause) (info : Nat) : Prop :=
  t = { s with pc := s.pc0, fault := some { cause := c, pc := s.pc0, info := info } }

/-- Every register outside the listed ones is kept. -/
def KeepsRegsBut (changed : List Reg) (s t : State) : Prop := ∀ k : Reg, k ∉ changed → t.reg k = s.reg k

/-- Every word that matches under the mask decodes to `f` of it: an encoding of 30_encoding.md. -/
def Selects (mask pattern : Word) (f : Word → Instr) : Prop :=
  ∀ w : Word, w &&& mask = pattern → decodeWord w = f w

/-! ### Register access (the table of 10_state.md R35) -/

/-- The registers an instruction may write. -/
def writesReg : Instr → Reg → Bool
  | .ldByte x _, k | .addByte x _, k | .ldReg x _, k | .orReg x _, k | .andReg x _, k | .xorReg x _, k
  | .rnd x _, k | .ldVxDt x, k | .ldVxK x, k => decide (k = x)
  | .addReg x _, k | .sub x _, k | .subn x _, k | .shr x, k | .shl x, k => decide (k = x ∨ k = vf)
  | .drw _ _ _, k => decide (k = vf)
  | .ldVxMem x, k => decide (k ≤ x)
  | .cls, _ | .ret, _ | .jp _, _ | .call _, _ | .seByte _ _, _ | .sneByte _ _, _ | .seReg _ _, _ | .sneReg _ _, _
  | .ldI _, _ | .jpV0 _, _ | .sknp _, _ | .skp _, _ | .ldDtVx _, _ | .ldStVx _, _ | .addI _, _ | .ldF _, _
  | .ldB _, _ | .ldMemVx _, _ | .nop _, _ => false

/-- The registers an instruction may read. -/
def readsReg : Instr → Reg → Bool
  | .seByte x _, k | .sneByte x _, k | .addByte x _, k | .shr x, k | .shl x, k | .skp x, k | .sknp x, k
  | .ldDtVx x, k | .ldStVx x, k | .addI x, k | .ldF x, k | .ldB x, k => decide (k = x)
  | .seReg x y, k | .sneReg x y, k | .orReg x y, k | .andReg x y, k | .xorReg x y, k | .addReg x y, k
  | .sub x y, k | .subn x y, k | .drw x y _, k => decide (k = x ∨ k = y)
  | .ldReg _ y, k => decide (k = y)
  | .jpV0 _, k => decide (k = 0)
  | .ldMemVx x, k => decide (k ≤ x)
  | .cls, _ | .ret, _ | .jp _, _ | .call _, _ | .ldI _, _ | .ldByte _ _, _ | .rnd _ _, _ | .ldVxDt _, _
  | .ldVxK _, _ | .ldVxMem _, _ | .nop _, _ => false

/-- Two outcomes agree up to the general registers: each register is given the same value in both, or left alone
in both. `s` and `s'` are the states before. -/
def AgreeButRegs (s s' : State) : Result → Result → Prop
  | .next t, .next t' =>
    t' = { t with v := t'.v } ∧ ∀ k : Reg, t'.reg k = t.reg k ∨ (t.reg k = s.reg k ∧ t'.reg k = s'.reg k)
  | .fault f, .fault f' => f = f'
  | .refused r, .refused r' => r = r'
  | _, _ => False

/-- The outcome with another sound timer in its state. -/
def withSoundTimer (st : Byte) : Result → Result
  | .next t => .next { t with st := st }
  | .fault f => .fault f
  | .refused r => .refused r

/-! ### Who writes which element of the state (the table of 10_state.md R20) -/

/-- The instructions that store to memory: LD B and LD [I]. -/
def storesMemory : Instr → Bool
  | .ldB _ | .ldMemVx _ => true
  | .cls | .ret | .jp _ | .call _ | .seByte _ _ | .sneByte _ _ | .seReg _ _ | .ldByte _ _ | .addByte _ _
  | .ldReg _ _ | .orReg _ _ | .andReg _ _ | .xorReg _ _ | .addReg _ _ | .sub _ _ | .shr _ | .subn _ _ | .shl _
  | .sneReg _ _ | .ldI _ | .jpV0 _ | .rnd _ _ | .drw _ _ _ | .sknp _ | .skp _ | .ldVxDt _ | .ldVxK _ | .ldDtVx _
  | .ldStVx _ | .addI _ | .ldF _ | .ldVxMem _ | .nop _ => false

/-- The instructions that write `I`: LD I, ADD I and LD F. -/
def setsIndex : Instr → Bool
  | .ldI _ | .addI _ | .ldF _ => true
  | .cls | .ret | .jp _ | .call _ | .seByte _ _ | .sneByte _ _ | .seReg _ _ | .ldByte _ _ | .addByte _ _
  | .ldReg _ _ | .orReg _ _ | .andReg _ _ | .xorReg _ _ | .addReg _ _ | .sub _ _ | .shr _ | .subn _ _ | .shl _
  | .sneReg _ _ | .jpV0 _ | .rnd _ _ | .drw _ _ _ | .sknp _ | .skp _ | .ldVxDt _ | .ldVxK _ | .ldDtVx _
  | .ldStVx _ | .ldB _ | .ldMemVx _ | .ldVxMem _ | .nop _ => false

/-- The instructions that write the display: CLS and DRW. -/
def writesDisplay : Instr → Bool
  | .cls | .drw _ _ _ => true
  | .ret | .jp _ | .call _ | .seByte _ _ | .sneByte _ _ | .seReg _ _ | .ldByte _ _ | .addByte _ _
  | .ldReg _ _ | .orReg _ _ | .andReg _ _ | .xorReg _ _ | .addReg _ _ | .sub _ _ | .shr _ | .subn _ _ | .shl _
  | .sneReg _ _ | .ldI _ | .jpV0 _ | .rnd _ _ | .sknp _ | .skp _ | .ldVxDt _ | .ldVxK _ | .ldDtVx _
  | .ldStVx _ | .addI _ | .ldF _ | .ldB _ | .ldMemVx _ | .ldVxMem _ | .nop _ => false

/-- The instructions that can raise a fault (60_exceptions.md R161, R162): a DRW of no rows cannot. -/
def mayFault : Instr → Bool
  | .ret | .call _ | .skp _ | .sknp _ | .ldB _ | .ldMemVx _ | .ldVxMem _ => true
  | .drw _ _ n => decide (n ≠ 0#4)
  | .cls | .jp _ | .seByte _ _ | .sneByte _ _ | .seReg _ _ | .ldByte _ _ | .addByte _ _
  | .ldReg _ _ | .orReg _ _ | .andReg _ _ | .xorReg _ _ | .addReg _ _ | .sub _ _ | .shr _ | .subn _ _ | .shl _
  | .sneReg _ _ | .ldI _ | .jpV0 _ | .rnd _ _ | .ldVxDt _ | .ldVxK _ | .ldDtVx _
  | .ldStVx _ | .addI _ | .ldF _ | .nop _ => false

/-- The instructions that leave the advanced `PC` alone when they do not fault. -/
def keepsPc : Instr → Bool
  | .ret | .jp _ | .call _ | .jpV0 _ | .seByte _ _ | .sneByte _ _ | .seReg _ _ | .sneReg _ _ | .skp _ | .sknp _
  | .ldVxK _ => false
  | .cls | .ldByte _ _ | .addByte _ _ | .ldReg _ _ | .orReg _ _ | .andReg _ _ | .xorReg _ _ | .addReg _ _ | .sub _ _
  | .shr _ | .subn _ _ | .shl _ | .ldI _ | .rnd _ _ | .drw _ _ _ | .ldVxDt _ | .ldDtVx _ | .ldStVx _ | .addI _
  | .ldF _ | .ldB _ | .ldMemVx _ | .ldVxMem _ | .nop _ => true

/-- How many bytes at `I` an instruction touches (R40). -/
def bytesAtI : Instr → Nat
  | .drw _ _ n => n.toNat
  | .ldB _ => 3
  | .ldMemVx x | .ldVxMem x => x.val + 1
  | .cls | .ret | .jp _ | .call _ | .seByte _ _ | .sneByte _ _ | .seReg _ _ | .ldByte _ _ | .addByte _ _
  | .ldReg _ _ | .orReg _ _ | .andReg _ _ | .xorReg _ _ | .addReg _ _ | .sub _ _ | .shr _ | .subn _ _ | .shl _
  | .sneReg _ _ | .ldI _ | .jpV0 _ | .rnd _ _ | .sknp _ | .skp _ | .ldVxDt _ | .ldVxK _ | .ldDtVx _
  | .ldStVx _ | .addI _ | .ldF _ | .nop _ => 0

/-- The delay timer an instruction leaves for the tick (R156). -/
def timerLeft (i : Instr) (s : State) : Byte :=
  match i with
  | .ldDtVx x => s.reg x
  | _ => s.dt

/-- The sound timer an instruction leaves for the tick (R157). -/
def soundLeft (i : Instr) (s : State) : Byte :=
  match i with
  | .ldStVx x => s.reg x
  | _ => s.st

/-- The outcome with another count of draws in its state. -/
def withDraws (n : Nat) : Result → Result
  | .next t => .next { t with draws := n }
  | .fault f => .fault f
  | .refused r => .refused r

/-! ### Display and sprite -/

/-- The sprite's bit over pixel (`y`, `x`): the pixel lies `row` rows below and `col` columns right of the start,
wrapping, and that bit of the byte at `I + row` is 1 (46_draw.md R145, R146). -/
def spriteCovers (s : State) (x y : Reg) (n : BitVec 4) (py : Fin 32) (px : Fin 64) : Prop :=
  ∃ row col : Nat, row < n.toNat ∧ col < 8 ∧
    py.val = ((s.reg y).toNat + row) % 32 ∧ px.val = ((s.reg x).toNat + col) % 64 ∧
    (Memory.read s.mem (s.i.toNat + row)).getLsbD (7 - col) = true

/-! ### Invariants -/

/-- The record of each cause is what 60_exceptions.md R161 says was recorded. -/
def recordConsistent (s : State) (r : FaultRecord) : Bool :=
  decide (r.pc = s.pc) &&
    match r.cause with
    | .addressOutOfRange => decide (4096 ≤ r.info ∧ r.info ≤ 0xFFFF)
    | .stackOverflow => decide (s.sp = 16#8 ∧ r.info ≤ 0xFFF)
    | .stackUnderflow => decide (s.sp = 0#8 ∧ r.info = 0)
    | .keyIndexOutOfRange => decide (16 ≤ r.info ∧ r.info ≤ 0xFF)

/-- A latched record belongs to the address the core is halted at (R86, R161). -/
def latchConsistent (s : State) : Bool :=
  match s.fault with
  | none => true
  | some r => recordConsistent s r

/-- The machine's invariant: memory in canonical form; `0 <= SP <= 16` (10_state.md R25); `PC` at most 0x10FE (R24);
return addresses at most 0x1000 (R24, R93); the latch consistent. -/
abbrev State.Inv (s : State) : Prop :=
  Memory.wf s.mem ∧ s.sp.toNat ≤ 16 ∧ s.pc.toNat ≤ 0x10FE ∧ (∀ k : Fin 16, s.stack[k].toNat ≤ 0x1000) ∧
    latchConsistent s = true

/-- A safe state: nothing has failed. -/
def State.Running (s : State) : Prop := s.fault = none

/-- The states that core and host reach together, in any order of operations (60_exceptions.md R170). -/
inductive Reachable : State → Prop where
  | reset : Reachable State.reset
  | step {s t : State} : Reachable s → step s = .next t → Reachable t
  | load {s : State} (bytes : List Byte) : Reachable s → Reachable (afterLoad bytes s)
  | keyWrite {s : State} (k : Fin 16) (b : Bool) : Reachable s → Reachable (hostKeyWrite k b s)
  | hostReset {s : State} : Reachable s → Reachable (hostReset s)

end Sys2Proof.Machine
end

