-- ==== Sys2Proof/Certificates/Slice0/Obligations.lean ====
section
/-! DEFINITION. The statements for the provers, from the numbered rules of spec/.
Where a docstring names a decision D<n>, the clause rests on the spec's own choice (92_eei_decisions.md), not on the
source document. In a statement about `exec`, `PC` is already `pc0 + 2` (00_scope.md R9). -/

open Sys2Proof Sys2Proof.Machine

/-! ### Encoding -/

/-- Every well-formed instruction is read back from its word, and from its two bytes followed by any others. -/
def Obligations.DecodeEncodeRoundTrip : Prop :=
  ∀ (i : Instr) (rest : List Byte), i.wellFormed = true →
    decodeWord (encode i) = i ∧ decode (encodeBytes i ++ rest) = .ok (i, rest)

/-- R71: at most one of the 34 rows holds for a word; the decoder gives that row's operation, and the no-op when no
row holds. -/
def Obligations.DecoderFollowsOpcodeTable : Prop :=
  (∀ (w : Word) (r q : OpcodeRow), r ∈ opcodeTable → q ∈ opcodeTable → r.holds w = true → q.holds w = true → r = q) ∧
  (∀ (w : Word) (r : OpcodeRow), r ∈ opcodeTable → r.holds w = true → (decodeWord w).mnemonic = r.mnemonic) ∧
  (∀ w : Word, (∀ r ∈ opcodeTable, r.holds w = false) → decodeWord w = .nop w)

/-- R61: the fields are those bits of the opcode, they overlap as said, and the two bytes at `PC` hold them. -/
def Obligations.OpcodeFieldsAreTheirBits : Prop :=
  (∀ w : Word,
    (fieldF w).toNat = w.toNat / 2 ^ 12 ∧ (fieldX w).val = w.toNat / 2 ^ 8 % 16 ∧
    (fieldY w).val = w.toNat / 2 ^ 4 % 16 ∧ (fieldN w).toNat = w.toNat % 16 ∧
    (fieldNN w).toNat = w.toNat % 256 ∧ (fieldNNN w).toNat = w.toNat % 4096 ∧
    (fieldNNN w).toNat = (fieldX w).val * 256 + (fieldY w).val * 16 + (fieldN w).toNat ∧
    (fieldNN w).toNat = (fieldY w).val * 16 + (fieldN w).toNat) ∧
  (∀ s : State,
    (Memory.read s.mem s.pc.toNat).toNat
      = (fieldF (fetchedWord s)).toNat * 16 + (fieldX (fetchedWord s)).val ∧
    (Memory.read s.mem (s.pc.toNat + 1)).toNat
      = (fieldY (fetchedWord s)).val * 16 + (fieldN (fetchedWord s)).toNat)

/-- R62, R65, R66, R67, R69: the bits marked "ign" select nothing. -/
def Obligations.IgnoredBitsSelectNothing : Prop :=
  ∀ (a : BitVec 8) (x y : Reg) (n : BitVec 4),
    decodeWord ((0x0#4 ++ a : BitVec 12) ++ 0x0#4) = .cls ∧
    decodeWord ((0x0#4 ++ a : BitVec 12) ++ 0xE#4) = .ret ∧
    decodeWord (wordXYN 0x5#4 x y n) = .seReg x y ∧ decodeWord (wordXYN 0x9#4 x y n) = .sneReg x y ∧
    decodeWord (wordXYN 0x8#4 x y 0x6#4) = .shr x ∧ decodeWord (wordXYN 0x8#4 x y 0xE#4) = .shl x ∧
    decodeWord (wordXYN 0xE#4 x y 0xE#4) = .skp x ∧ decodeWord (wordXYN 0xE#4 x y 0x1#4) = .sknp x

/-- Words the spec prints (30_encoding.md R65, R72; 95_test_vectors.md) are the instructions they stand for. -/
def Obligations.PrintedWordsDecode : Prop :=
  decodeWord 0x00E0#16 = .cls ∧ decodeWord 0x0FFE#16 = .ret ∧ decodeWord 0x220A#16 = .call 0x20A#12 ∧
  decodeWord 0x332A#16 = .seByte 3 0x2A#8 ∧ decodeWord 0x600A#16 = .ldByte 0 0x0A#8 ∧
  decodeWord 0x8127#16 = .subn 1 2 ∧ decodeWord 0xB300#16 = .jpV0 0x300#12 ∧
  decodeWord 0xC30F#16 = .rnd 3 0x0F#8 ∧ decodeWord 0xD125#16 = .drw 1 2 0x5#4 ∧
  decodeWord 0xE49E#16 = .skp 4 ∧ decodeWord 0xF20A#16 = .ldVxK 2 ∧ decodeWord 0xF029#16 = .ldF 0 ∧
  decodeWord 0x8008#16 = .nop 0x8008#16

/-! ### The cycle -/

/-- R80 to R84: when the two bytes at `PC` decode to `i`, a step is `exec i` on the state whose `PC` is advanced by 2,
and then, unless a fault was raised, one tick of each timer. Where `exec` stops, the step stops with the same reason. -/
def Obligations.StepRunsDecodedInstruction : Prop :=
  ∀ (s : State) (i : Instr), s.fault = none → s.pc.toNat ≤ 4094 →
    decode [Memory.read s.mem s.pc.toNat, Memory.read s.mem (s.pc.toNat + 1)] = .ok (i, []) →
    step s =
      match exec i { s with pc := s.pc + 2#16 } with
      | .next t =>
        if t.fault = none then
          .next { t with dt := BitVec.ofNat 8 (t.dt.toNat - 1), st := BitVec.ofNat 8 (t.st.toNat - 1) }
        else .next t
      | .fault f => .fault f
      | .refused r => .refused r

/-- R44: the fetch is `mem[PC] * 256 + mem[PC+1]`; the byte at the lower address holds `op[15:8]`. -/
def Obligations.FetchIsBigEndian : Prop :=
  ∀ s : State, s.pc.toNat ≤ 4094 → ∃ op : Word, fetch s = some op ∧
    op.toNat = (Memory.read s.mem s.pc.toNat).toNat * 256 + (Memory.read s.mem (s.pc.toNat + 1)).toNat ∧
    op.extractLsb' 8 8 = Memory.read s.mem s.pc.toNat ∧
    op.extractLsb' 0 8 = Memory.read s.mem (s.pc.toNat + 1)

/-- R81, R43 (the spec's decision D3): a fetch that needs a byte above 4095 faults and changes only the latch. -/
def Obligations.FetchAboveMemoryFaults : Prop :=
  ∀ s : State, s.fault = none →
    (s.pc.toNat = 4095 → step s = .next
      { s with fault := some { cause := .addressOutOfRange, pc := s.pc, info := 4096 } }) ∧
    (4096 ≤ s.pc.toNat → step s = .next
      { s with fault := some { cause := .addressOutOfRange, pc := s.pc, info := s.pc.toNat } })

/-- R87, R165 (the spec's decision D6): a latched fault halts the core; LOAD and KEY_WRITE still work and keep the
latch; RESET clears it. -/
def Obligations.LatchedFaultHaltsCore : Prop :=
  ∀ (s : State) (r : FaultRecord), s.fault = some r →
    step s = .next s ∧
    (∀ bytes, (afterLoad bytes s).fault = some r ∧
      (bytes.length ≤ 3584 → ∀ k, (h : k < bytes.length) →
        Memory.read (afterLoad bytes s).mem (0x200 + k) = bytes[k])) ∧
    (∀ k b, (hostKeyWrite k b s).fault = some r ∧ (hostKeyWrite k b s).pressed k = b) ∧
    (hostReset s).fault = none

/-- R86 (the spec's decision D6): a cycle that raises a fault changes the latch and nothing else; the record's `pc` is
the address of the faulting instruction. -/
def Obligations.FaultingCycleOnlyLatches : Prop :=
  ∀ s t : State, s.fault = none → step s = .next t → t.fault ≠ none →
    ∃ (c : Cause) (info : Nat), t = { s with fault := some { cause := c, pc := s.pc, info := info } }

/-- R26, R158: each completed cycle takes 1 from each timer that is not 0, after the instruction; only LD DT and LD ST
write a timer, LD Vx,DT reads DT, and no instruction reads ST. -/
def Obligations.TimersCountCompletedCycles : Prop :=
  (∀ s t : State, s.fault = none → step s = .next t → t.fault = none →
    t.dt.toNat = (timerLeft (decodeWord (fetchedWord s)) s).toNat - 1 ∧
    t.st.toNat = (soundLeft (decodeWord (fetchedWord s)) s).toNat - 1) ∧
  (∀ (x : Reg) (s : State), ∃ t, exec (.ldVxDt x) s = .next t ∧ t.reg x = s.dt) ∧
  (∀ (i : Instr) (s : State) (b : Byte), (∀ x, i ≠ .ldStVx x) →
    exec i { s with st := b } = withSoundTimer b (exec i s)) ∧
  (∀ (x : Reg) (s : State) (b : Byte), exec (.ldStVx x) { s with st := b } = exec (.ldStVx x) s)

/-- R85: the unmapped words, and only they, are the no-op; its cycle advances `PC`, ticks the timers, and changes
nothing else. -/
def Obligations.UnmappedWordIsNop : Prop :=
  (∀ w : Word, unmapped w = true ↔ decodeWord w = .nop w) ∧
  (∀ (w : Word) (s : State), exec (.nop w) s = .next s) ∧
  (∀ s : State, s.fault = none → s.pc.toNat ≤ 4094 → unmapped (fetchedWord s) = true → step s = .next
    { s with pc := s.pc + 2#16, dt := BitVec.ofNat 8 (s.dt.toNat - 1), st := BitVec.ofNat 8 (s.st.toNat - 1) })

/-! ### Control flow -/

/-- R90: CLS puts out every pixel and changes nothing else. -/
def Obligations.ClsClearsDisplay : Prop :=
  Selects 0xF00F#16 0x0000#16 (fun _ => .cls) ∧
  ∀ s : State, ∃ t, exec .cls s = .next t ∧ DisplayOnly s t ∧ SameMemory s t ∧
    ∀ y x, pixel t.disp y x = false

/-- R91 (the empty stack: the spec's decision D4): RET takes the return address from `stack[SP-1]`, which stays. -/
def Obligations.RetPopsReturnAddress : Prop :=
  Selects 0xF00F#16 0x000E#16 (fun _ => .ret) ∧
  (∀ s : State, 1 ≤ s.sp.toNat → s.sp.toNat ≤ 16 → ∃ t, exec .ret s = .next t ∧
    t = { s with sp := t.sp, pc := t.pc } ∧ SameMemory s t ∧
    t.sp.toNat = s.sp.toNat - 1 ∧ s.stack[s.sp.toNat - 1]? = some t.pc) ∧
  (∀ s : State, s.sp.toNat = 0 → ∃ t, exec .ret s = .next t ∧ FaultTaken s t .stackUnderflow 0)

/-- R92: JP installs its 12-bit target. -/
def Obligations.JpInstallsTarget : Prop :=
  Selects 0xF000#16 0x1000#16 (fun w => .jp (fieldNNN w)) ∧
  ∀ (nnn : BitVec 12) (s : State), ∃ t, exec (.jp nnn) s = .next t ∧ PcOnly s t ∧ SameMemory s t ∧
    t.pc.toNat = nnn.toNat

/-- R93 (the full stack: the spec's decision D4): CALL pushes the advanced `PC` at `stack[SP]` and jumps; every other
entry is kept. -/
def Obligations.CallPushesReturnAddress : Prop :=
  Selects 0xF000#16 0x2000#16 (fun w => .call (fieldNNN w)) ∧
  (∀ (nnn : BitVec 12) (s : State), s.sp.toNat ≤ 15 → ∃ t, exec (.call nnn) s = .next t ∧
    StackOnly s t ∧ SameMemory s t ∧ t.pc.toNat = nnn.toNat ∧ t.sp.toNat = s.sp.toNat + 1 ∧
    t.stack[s.sp.toNat]? = some s.pc ∧ ∀ k, k ≠ s.sp.toNat → t.stack[k]? = s.stack[k]?) ∧
  (∀ (nnn : BitVec 12) (s : State), s.sp.toNat = 16 → ∃ t, exec (.call nnn) s = .next t ∧
    FaultTaken s t .stackOverflow nnn.toNat)

/-- R94 (no mask to 12 bits: the spec's decision D27): JP V0 adds V0 to its target. -/
def Obligations.JpV0AddsOffset : Prop :=
  Selects 0xF000#16 0xB000#16 (fun w => .jpV0 (fieldNNN w)) ∧
  ∀ (nnn : BitVec 12) (s : State), ∃ t, exec (.jpV0 nnn) s = .next t ∧ PcOnly s t ∧ SameMemory s t ∧
    t.pc.toNat = nnn.toNat + (s.reg 0).toNat

/-- The source's property S5 (95_test_vectors.md): CALL, then RET from wherever the subroutine has got to, restores
the `PC` right after the CALL's own advance and the stack pointer; only the pushed entry has changed. -/
def Obligations.CallThenRetReturns : Prop :=
  ∀ (nnn : BitVec 12) (s : State) (p : Word), s.sp.toNat ≤ 15 → ∃ t u,
    exec (.call nnn) s = .next t ∧ exec .ret { t with pc := p } = .next u ∧
    u = { s with stack := t.stack } ∧ ∀ k, k ≠ s.sp.toNat → u.stack[k]? = s.stack[k]?

/-! ### Skips -/

/-- R100 to R103: the four comparing skips. -/
def Obligations.ComparingSkips : Prop :=
  (Selects 0xF000#16 0x3000#16 (fun w => .seByte (fieldX w) (fieldNN w)) ∧
    Selects 0xF000#16 0x4000#16 (fun w => .sneByte (fieldX w) (fieldNN w)) ∧
    Selects 0xF000#16 0x5000#16 (fun w => .seReg (fieldX w) (fieldY w)) ∧
    Selects 0xF000#16 0x9000#16 (fun w => .sneReg (fieldX w) (fieldY w))) ∧
  (∀ (x : Reg) (nn : Byte) (s : State), ∃ t, exec (.seByte x nn) s = .next t ∧ PcOnly s t ∧ SameMemory s t ∧
    (s.reg x = nn → t.pc = s.pc + 2#16) ∧ (s.reg x ≠ nn → t.pc = s.pc)) ∧
  (∀ (x : Reg) (nn : Byte) (s : State), ∃ t, exec (.sneByte x nn) s = .next t ∧ PcOnly s t ∧ SameMemory s t ∧
    (s.reg x ≠ nn → t.pc = s.pc + 2#16) ∧ (s.reg x = nn → t.pc = s.pc)) ∧
  (∀ (x y : Reg) (s : State), ∃ t, exec (.seReg x y) s = .next t ∧ PcOnly s t ∧ SameMemory s t ∧
    (s.reg x = s.reg y → t.pc = s.pc + 2#16) ∧ (s.reg x ≠ s.reg y → t.pc = s.pc)) ∧
  (∀ (x y : Reg) (s : State), ∃ t, exec (.sneReg x y) s = .next t ∧ PcOnly s t ∧ SameMemory s t ∧
    (s.reg x ≠ s.reg y → t.pc = s.pc + 2#16) ∧ (s.reg x = s.reg y → t.pc = s.pc))

/-- R104, R105 (an index above 15: the spec's decision D5): the key is the one `V[X]` names. -/
def Obligations.KeySkips : Prop :=
  (Selects 0xF00F#16 0xE00E#16 (fun w => .skp (fieldX w)) ∧
    Selects 0xF00F#16 0xE001#16 (fun w => .sknp (fieldX w))) ∧
  (∀ (x : Reg) (s : State) (k : Fin 16), (s.reg x).toNat = k.val →
    (∃ t, exec (.skp x) s = .next t ∧ PcOnly s t ∧ SameMemory s t ∧
      (s.pressed k = true → t.pc = s.pc + 2#16) ∧ (s.pressed k = false → t.pc = s.pc)) ∧
    (∃ t, exec (.sknp x) s = .next t ∧ PcOnly s t ∧ SameMemory s t ∧
      (s.pressed k = false → t.pc = s.pc + 2#16) ∧ (s.pressed k = true → t.pc = s.pc))) ∧
  (∀ (x : Reg) (s : State), 15 < (s.reg x).toNat →
    (∃ t, exec (.skp x) s = .next t ∧ FaultTaken s t .keyIndexOutOfRange (s.reg x).toNat) ∧
    (∃ t, exec (.sknp x) s = .next t ∧ FaultTaken s t .keyIndexOutOfRange (s.reg x).toNat))

/-! ### Registers and arithmetic -/

/-- R111, R113: the register gets the immediate, or the other register's value; no other register changes. -/
def Obligations.LoadsSetRegister : Prop :=
  (Selects 0xF000#16 0x6000#16 (fun w => .ldByte (fieldX w) (fieldNN w)) ∧
    Selects 0xF00F#16 0x8000#16 (fun w => .ldReg (fieldX w) (fieldY w))) ∧
  (∀ (x : Reg) (nn : Byte) (s : State), ∃ t, exec (.ldByte x nn) s = .next t ∧ RegsOnly s t ∧ SameMemory s t ∧
    t.reg x = nn ∧ KeepsRegsBut [x] s t) ∧
  (∀ (x y : Reg) (s : State), ∃ t, exec (.ldReg x y) s = .next t ∧ RegsOnly s t ∧ SameMemory s t ∧
    t.reg x = s.reg y ∧ KeepsRegsBut [x] s t)

/-- R112: the immediate sum modulo 256, with no flag: VF changes only as the register X. -/
def Obligations.AddByteWrapsWithoutFlag : Prop :=
  Selects 0xF000#16 0x7000#16 (fun w => .addByte (fieldX w) (fieldNN w)) ∧
  ∀ (x : Reg) (nn : Byte) (s : State), ∃ t, exec (.addByte x nn) s = .next t ∧ RegsOnly s t ∧ SameMemory s t ∧
    (t.reg x).toNat = ((s.reg x).toNat + nn.toNat) % 256 ∧ KeepsRegsBut [x] s t

/-- R114 to R116 (VF left alone: the spec's decision D12): bit by bit, into X only. -/
def Obligations.BitwiseOperations : Prop :=
  (Selects 0xF00F#16 0x8001#16 (fun w => .orReg (fieldX w) (fieldY w)) ∧
    Selects 0xF00F#16 0x8002#16 (fun w => .andReg (fieldX w) (fieldY w)) ∧
    Selects 0xF00F#16 0x8003#16 (fun w => .xorReg (fieldX w) (fieldY w))) ∧
  ∀ (x y : Reg) (s : State),
    (∃ t, exec (.orReg x y) s = .next t ∧ RegsOnly s t ∧ SameMemory s t ∧ KeepsRegsBut [x] s t ∧
      ∀ j, (t.reg x).getLsbD j = ((s.reg x).getLsbD j || (s.reg y).getLsbD j)) ∧
    (∃ t, exec (.andReg x y) s = .next t ∧ RegsOnly s t ∧ SameMemory s t ∧ KeepsRegsBut [x] s t ∧
      ∀ j, (t.reg x).getLsbD j = ((s.reg x).getLsbD j && (s.reg y).getLsbD j)) ∧
    (∃ t, exec (.xorReg x y) s = .next t ∧ RegsOnly s t ∧ SameMemory s t ∧ KeepsRegsBut [x] s t ∧
      ∀ j, (t.reg x).getLsbD j = ((s.reg x).getLsbD j ^^ (s.reg y).getLsbD j))

/-- R117: the sum modulo 256, then VF = 1 exactly when the exact sum exceeds 255. With X = 15, VF ends as the flag. -/
def Obligations.AddSetsCarry : Prop :=
  Selects 0xF00F#16 0x8004#16 (fun w => .addReg (fieldX w) (fieldY w)) ∧
  ∀ (x y : Reg) (s : State), ∃ t, exec (.addReg x y) s = .next t ∧ RegsOnly s t ∧ SameMemory s t ∧
    (x ≠ vf → (t.reg x).toNat = ((s.reg x).toNat + (s.reg y).toNat) % 256) ∧
    (t.reg vf).toNat = (if 255 < (s.reg x).toNat + (s.reg y).toNat then 1 else 0) ∧ KeepsRegsBut [x, vf] s t

/-- R118: the difference modulo 256, then VF = 1 exactly when the minuend V[X] is strictly greater. -/
def Obligations.SubSetsNotBorrow : Prop :=
  Selects 0xF00F#16 0x8005#16 (fun w => .sub (fieldX w) (fieldY w)) ∧
  ∀ (x y : Reg) (s : State), ∃ t, exec (.sub x y) s = .next t ∧ RegsOnly s t ∧ SameMemory s t ∧
    (x ≠ vf → ((t.reg x).toNat : Int) = (((s.reg x).toNat : Int) - (s.reg y).toNat) % 256) ∧
    (t.reg vf).toNat = (if (s.reg y).toNat < (s.reg x).toNat then 1 else 0) ∧ KeepsRegsBut [x, vf] s t

/-- R120: the reverse difference modulo 256, then VF = 1 exactly when the minuend V[Y] is strictly greater. -/
def Obligations.SubnSetsNotBorrow : Prop :=
  Selects 0xF00F#16 0x8007#16 (fun w => .subn (fieldX w) (fieldY w)) ∧
  ∀ (x y : Reg) (s : State), ∃ t, exec (.subn x y) s = .next t ∧ RegsOnly s t ∧ SameMemory s t ∧
    (x ≠ vf → ((t.reg x).toNat : Int) = (((s.reg y).toNat : Int) - (s.reg x).toNat) % 256) ∧
    (t.reg vf).toNat = (if (s.reg x).toNat < (s.reg y).toNat then 1 else 0) ∧ KeepsRegsBut [x, vf] s t

/-- R119, R121 (V[X] is shifted in place, Y is not read: the spec's decision D12): one bit, 0 filled in, VF the bit
shifted out. -/
def Obligations.ShiftsDeliverBitOut : Prop :=
  (Selects 0xF00F#16 0x8006#16 (fun w => .shr (fieldX w)) ∧
    Selects 0xF00F#16 0x800E#16 (fun w => .shl (fieldX w))) ∧
  (∀ (x : Reg) (s : State), ∃ t, exec (.shr x) s = .next t ∧ RegsOnly s t ∧ SameMemory s t ∧
    (x ≠ vf → (t.reg x).toNat = (s.reg x).toNat / 2) ∧ (t.reg vf).toNat = (s.reg x).toNat % 2 ∧
    KeepsRegsBut [x, vf] s t) ∧
  (∀ (x : Reg) (s : State), ∃ t, exec (.shl x) s = .next t ∧ RegsOnly s t ∧ SameMemory s t ∧
    (x ≠ vf → (t.reg x).toNat = (s.reg x).toNat * 2 % 256) ∧ (t.reg vf).toNat = (s.reg x).toNat / 128 ∧
    KeepsRegsBut [x, vf] s t)

/-! ### The index register and memory -/

/-- R130: `I` gets the 12-bit address. -/
def Obligations.LdISetsIndex : Prop :=
  Selects 0xF000#16 0xA000#16 (fun w => .ldI (fieldNNN w)) ∧
  ∀ (nnn : BitVec 12) (s : State), ∃ t, exec (.ldI nnn) s = .next t ∧ IndexOnly s t ∧ SameMemory s t ∧
    t.i.toNat = nnn.toNat

/-- R131 (reduction modulo 65536 only: the spec's decision D21), R132 (no mask of the digit: D10). -/
def Obligations.IndexArithmetic : Prop :=
  (Selects 0xF0FF#16 0xF01E#16 (fun w => .addI (fieldX w)) ∧ Selects 0xF0FF#16 0xF029#16 (fun w => .ldF (fieldX w))) ∧
  (∀ (x : Reg) (s : State), ∃ t, exec (.addI x) s = .next t ∧ IndexOnly s t ∧ SameMemory s t ∧
    t.i.toNat = (s.i.toNat + (s.reg x).toNat) % 65536) ∧
  (∀ (x : Reg) (s : State), ∃ t, exec (.ldF x) s = .next t ∧ IndexOnly s t ∧ SameMemory s t ∧
    t.i.toNat = 0x050 + 5 * (s.reg x).toNat)

/-- R133 (an address above 4095: the spec's decision D3): hundreds, tens, ones at `I`, `I+1`, `I+2`; else nothing. -/
def Obligations.LdBStoresDigits : Prop :=
  Selects 0xF0FF#16 0xF033#16 (fun w => .ldB (fieldX w)) ∧
  (∀ (x : Reg) (s : State), s.i.toNat + 2 ≤ 4095 → ∃ t, exec (.ldB x) s = .next t ∧ MemoryOnly s t ∧
    (Memory.read t.mem s.i.toNat).toNat = (s.reg x).toNat / 100 ∧
    (Memory.read t.mem (s.i.toNat + 1)).toNat = (s.reg x).toNat / 10 % 10 ∧
    (Memory.read t.mem (s.i.toNat + 2)).toNat = (s.reg x).toNat % 10 ∧
    SameMemoryOutside s.i.toNat 3 s t) ∧
  (∀ (x : Reg) (s : State), 4095 < s.i.toNat + 2 → ∃ t, exec (.ldB x) s = .next t ∧
    FaultTaken s t .addressOutOfRange (max s.i.toNat 4096))

/-- R134 (`I` unchanged: the spec's decision D11; an address above 4095: D3): `V[k]` to `I + k` for `k` in 0..X. -/
def Obligations.BlockStoreWritesRegisters : Prop :=
  Selects 0xF0FF#16 0xF055#16 (fun w => .ldMemVx (fieldX w)) ∧
  (∀ (x : Reg) (s : State), s.i.toNat + x.val ≤ 4095 → ∃ t, exec (.ldMemVx x) s = .next t ∧ MemoryOnly s t ∧
    (∀ k : Reg, k ≤ x → Memory.read t.mem (s.i.toNat + k.val) = s.reg k) ∧
    SameMemoryOutside s.i.toNat (x.val + 1) s t) ∧
  (∀ (x : Reg) (s : State), 4095 < s.i.toNat + x.val → ∃ t, exec (.ldMemVx x) s = .next t ∧
    FaultTaken s t .addressOutOfRange (max s.i.toNat 4096))

/-- R135 (`I` unchanged: the spec's decision D11; an address above 4095: D3): `I + k` to `V[k]` for `k` in 0..X. -/
def Obligations.BlockLoadReadsMemory : Prop :=
  Selects 0xF0FF#16 0xF065#16 (fun w => .ldVxMem (fieldX w)) ∧
  (∀ (x : Reg) (s : State), s.i.toNat + x.val ≤ 4095 → ∃ t, exec (.ldVxMem x) s = .next t ∧ RegsOnly s t ∧
    SameMemory s t ∧ (∀ k : Reg, k ≤ x → t.reg k = Memory.read s.mem (s.i.toNat + k.val)) ∧
    ∀ k : Reg, x < k → t.reg k = s.reg k) ∧
  (∀ (x : Reg) (s : State), 4095 < s.i.toNat + x.val → ∃ t, exec (.ldVxMem x) s = .next t ∧
    FaultTaken s t .addressOutOfRange (max s.i.toNat 4096))

/-- A block load undoes a block store: whatever the registers hold in between, V0..VX come back. -/
def Obligations.BlockStoreThenLoadRestores : Prop :=
  ∀ (x : Reg) (s : State) (between : Vector Byte 16), s.i.toNat + x.val ≤ 4095 → ∃ t u,
    exec (.ldMemVx x) s = .next t ∧ exec (.ldVxMem x) { t with v := between } = .next u ∧
    (∀ k : Reg, k ≤ x → u.reg k = s.reg k) ∧ ∀ k : Reg, x < k → u.reg k = between[k]

/-- R51: a store over the two bytes at `PC` is what the next fetch reads, with nothing in between. -/
def Obligations.StoreIsSeenByNextFetch : Prop :=
  ∀ (x : Reg) (s : State), 1 ≤ x.val → s.i = s.pc → s.i.toNat + x.val ≤ 4095 → ∃ t,
    exec (.ldMemVx x) s = .next t ∧ fetch t = some (s.reg 0 ++ s.reg 1)

/-! ### Random, draw, input, timers -/

/-- R140: the drawn byte AND the immediate, bit by bit. The drawn byte is the model's free value (log 1) at the
model's own count of draws, which the instruction advances (log 2). -/
def Obligations.RndMasksDrawnByte : Prop :=
  Selects 0xF000#16 0xC000#16 (fun w => .rnd (fieldX w) (fieldNN w)) ∧
  ∀ (x : Reg) (nn : Byte) (s : State), ∃ t, exec (.rnd x nn) s = .next t ∧
    t = { s with v := t.v, draws := s.draws + 1 } ∧ SameMemory s t ∧ KeepsRegsBut [x] s t ∧
    ∀ j, (t.reg x).getLsbD j = ((Config.randomByte s.draws).getLsbD j && nn.getLsbD j)

/-- R145, R146, R148 (bit order: the spec's decision D18; N = 0: D29; an address above 4095: D3): the display becomes
the display XOR the sprite, wrapping, and VF says whether a lit pixel was under a sprite bit. -/
def Obligations.DrwXorsSprite : Prop :=
  Selects 0xF000#16 0xD000#16 (fun w => .drw (fieldX w) (fieldY w) (fieldN w)) ∧
  (∀ (x y : Reg) (n : BitVec 4) (s : State), n.toNat = 0 ∨ s.i.toNat + n.toNat ≤ 4096 → ∃ t,
    exec (.drw x y n) s = .next t ∧ t = { s with v := t.v, disp := t.disp } ∧ SameMemory s t ∧
    KeepsRegsBut [vf] s t ∧
    (∀ py px, spriteCovers s x y n py px → pixel t.disp py px = !pixel s.disp py px) ∧
    (∀ py px, ¬ spriteCovers s x y n py px → pixel t.disp py px = pixel s.disp py px) ∧
    ((∃ py px, spriteCovers s x y n py px ∧ pixel s.disp py px = true) → t.reg vf = 0x01#8) ∧
    ((¬ ∃ py px, spriteCovers s x y n py px ∧ pixel s.disp py px = true) → t.reg vf = 0x00#8)) ∧
  (∀ (x y : Reg) (n : BitVec 4) (s : State), 0 < n.toNat → 4096 < s.i.toNat + n.toNat → ∃ t,
    exec (.drw x y n) s = .next t ∧ FaultTaken s t .addressOutOfRange (max s.i.toNat 4096))

/-- R147: drawing the same sprite twice at the same place restores every pixel; the second flag says whether some
covered pixel was unlit before the first draw. -/
def Obligations.DrwIsSelfInverse : Prop :=
  ∀ (x y : Reg) (n : BitVec 4) (s : State), x ≠ vf → y ≠ vf → n.toNat = 0 ∨ s.i.toNat + n.toNat ≤ 4096 → ∃ t u,
    exec (.drw x y n) s = .next t ∧ exec (.drw x y n) t = .next u ∧ u.disp = s.disp ∧
    ((∃ py px, spriteCovers s x y n py px ∧ pixel s.disp py px = false) → u.reg vf = 0x01#8) ∧
    ((¬ ∃ py px, spriteCovers s x y n py px ∧ pixel s.disp py px = false) → u.reg vf = 0x00#8)

/-- R150, R151 (no release, no edge: the spec's decision D24): no key down rewinds `PC`, and the whole cycle leaves `PC`
where it was while the timers tick; else the least key that is down is stored. -/
def Obligations.LdKPollsKeypad : Prop :=
  Selects 0xF0FF#16 0xF00A#16 (fun w => .ldVxK (fieldX w)) ∧
  (∀ (x : Reg) (s : State), (∀ k, s.pressed k = false) → ∃ t, exec (.ldVxK x) s = .next t ∧ PcOnly s t ∧
    SameMemory s t ∧ t.pc = s.pc - 2#16) ∧
  (∀ (x : Reg) (s : State) (k : Fin 16), s.pressed k = true → (∀ j, j < k → s.pressed j = false) → ∃ t,
    exec (.ldVxK x) s = .next t ∧ RegsOnly s t ∧ SameMemory s t ∧ (t.reg x).toNat = k.val ∧ KeepsRegsBut [x] s t) ∧
  (∀ (x : Reg) (s : State), s.fault = none → s.pc.toNat ≤ 4094 → decodeWord (fetchedWord s) = .ldVxK x →
    (∀ k, s.pressed k = false) → step s = .next
      { s with dt := BitVec.ofNat 8 (s.dt.toNat - 1), st := BitVec.ofNat 8 (s.st.toNat - 1) })

/-- R155 to R157 (the tick in the same cycle is the spec's own inference): the moves between a register and a timer,
and the timer's value at the end of the cycle that writes it. -/
def Obligations.TimerMoves : Prop :=
  (Selects 0xF0FF#16 0xF007#16 (fun w => .ldVxDt (fieldX w)) ∧
    Selects 0xF0FF#16 0xF015#16 (fun w => .ldDtVx (fieldX w)) ∧
    Selects 0xF0FF#16 0xF018#16 (fun w => .ldStVx (fieldX w))) ∧
  (∀ (x : Reg) (s : State),
    (∃ t, exec (.ldVxDt x) s = .next t ∧ RegsOnly s t ∧ SameMemory s t ∧ t.reg x = s.dt ∧ KeepsRegsBut [x] s t) ∧
    exec (.ldDtVx x) s = .next { s with dt := s.reg x } ∧ exec (.ldStVx x) s = .next { s with st := s.reg x }) ∧
  (∀ (x : Reg) (s : State), s.fault = none → s.pc.toNat ≤ 4094 → decodeWord (fetchedWord s) = .ldDtVx x → ∃ t,
    step s = .next t ∧ t.dt.toNat = (s.reg x).toNat - 1) ∧
  (∀ (x : Reg) (s : State), s.fault = none → s.pc.toNat ≤ 4094 → decodeWord (fetchedWord s) = .ldStVx x → ∃ t,
    step s = .next t ∧ t.st.toNat = (s.reg x).toNat - 1) ∧
  (∀ (x : Reg) (s : State), s.fault = none → s.pc.toNat ≤ 4094 → decodeWord (fetchedWord s) = .ldVxDt x → ∃ t,
    step s = .next t ∧ t.reg x = s.dt ∧ t.dt.toNat = (t.reg x).toNat - 1)

/-! ### Whole-machine rules -/

/-- R35, read from the table: a register the instruction does not list as written is kept, and one it does not list as
read cannot change what it does. -/
def Obligations.RegisterAccessIsTheTable : Prop :=
  (∀ (i : Instr) (s t : State) (k : Reg), exec i s = .next t → writesReg i k = false → t.reg k = s.reg k) ∧
  (∀ (i : Instr) (s : State) (w : Vector Byte 16), (∀ k : Reg, readsReg i k = true → w[k] = s.v[k]) →
    AgreeButRegs s { s with v := w } (exec i s) (exec i { s with v := w }))

/-- R20, R25 to R28, R40, R158: which instructions write which element of the state. That only the instructions of
R161 write the latch is the spec's own inference (R162); the clause on `PC` is read from R24 and R82 and the rules of
the jumps and skips. -/
def Obligations.WritersOfStateElements : Prop :=
  ∀ (i : Instr) (s t : State), exec i s = .next t →
    t.key = s.key ∧ (storesMemory i = false → t.mem = s.mem) ∧ (setsIndex i = false → t.i = s.i) ∧
    ((∀ nnn, i ≠ .call nnn) → t.stack = s.stack) ∧ ((∀ nnn, i ≠ .call nnn) → i ≠ .ret → t.sp = s.sp) ∧
    (writesDisplay i = false → t.disp = s.disp) ∧ t.dt = timerLeft i s ∧ t.st = soundLeft i s ∧
    (mayFault i = false → t.fault = s.fault) ∧ (keepsPc i = true → t.fault = none → t.pc = s.pc)

/-- R162: the instructions that never fault once fetched always complete, and leave the latch alone. -/
def Obligations.MostInstructionsNeverFault : Prop :=
  ∀ (i : Instr) (s : State), mayFault i = false → ∃ t, exec i s = .next t ∧ t.fault = s.fault

/-- R161 (the spec's decisions D3 to D7): a fault raised by an instruction is one of the four, raised by the listed
instructions under the listed condition, with the listed value, at the instruction's own address. -/
def Obligations.FaultCausesAreTheTable : Prop :=
  ∀ (i : Instr) (s t : State) (r : FaultRecord), s.fault = none → exec i s = .next t → t.fault = some r →
    FaultTaken s t r.cause r.info ∧
    ((r.cause = .addressOutOfRange ∧ 0 < bytesAtI i ∧ 4095 < s.i.toNat + (bytesAtI i - 1) ∧
        r.info = max s.i.toNat 4096) ∨
      (∃ nnn, i = .call nnn ∧ r.cause = .stackOverflow ∧ s.sp = 16#8 ∧ r.info = nnn.toNat) ∨
      (i = .ret ∧ r.cause = .stackUnderflow ∧ s.sp = 0#8 ∧ r.info = 0) ∨
      (∃ x, (i = .skp x ∨ i = .sknp x) ∧ r.cause = .keyIndexOutOfRange ∧ 15 < (s.reg x).toNat ∧
        r.info = (s.reg x).toNat))

/-- R141: only RND reads the random byte; every other instruction does the same whatever is drawn next. -/
def Obligations.OnlyRndReadsRandomByte : Prop :=
  ∀ (i : Instr) (s : State) (n : Nat), (∀ x nn, i ≠ .rnd x nn) →
    exec i { s with draws := n } = withDraws n (exec i s)

/-- Every step keeps the invariant: canonical memory, `0 <= SP <= 16` (R25), `PC` at most 0x10FE (R24), return
addresses inside memory's end, and a latch that fits the state (R161, R163). -/
def Obligations.StepKeepsMachineInvariant : Prop :=
  ∀ s t : State, s.Inv → step s = .next t → t.Inv

/-- The state after reset meets the invariant. -/
def Obligations.ResetMeetsMachineInvariant : Prop :=
  State.reset.Inv

/-- Every host operation keeps the invariant (R170). -/
def Obligations.HostKeepsMachineInvariant : Prop :=
  ∀ s : State, s.Inv →
    (∀ bytes, (afterLoad bytes s).Inv) ∧ (∀ k b, (hostKeyWrite k b s).Inv) ∧ (hostReset s).Inv

/-- R7: in every state that core and host reach together, in any order, the step answers a next state: the model never
stops. -/
def Obligations.ReachableCoreAlwaysSteps : Prop :=
  ∀ s : State, Reachable s → s.Inv ∧ ∃ t, step s = .next t

/-- The model's own stop (log 7): with `SP > 16`, which no run reaches, CALL and RET name no stack entry and stop. -/
def Obligations.IllegalStackPointerStops : Prop :=
  ∀ (s : State) (nnn : BitVec 12), 16 < s.sp.toNat →
    exec .ret s = .fault .stackPointerOutOfRange ∧ exec (.call nnn) s = .fault .stackPointerOutOfRange

/-! ### Reset and host -/

/-- R33, R190 (PC: the spec's decision D1; I, SP, stack, display, keypad: D2; latch: D6; the font bytes: the default of
the parameter FONT, log 3): the state after RESET, which does not depend on the state before but for the model's own
count of draws (log 2). -/
def Obligations.ResetValues : Prop :=
  (∀ a, a < 0x050 ∨ 0x09F < a → Memory.read State.reset.mem a = 0x00#8) ∧
  (∀ j, j < 80 → font[j]? = some (Memory.read State.reset.mem (0x050 + j))) ∧ font.length = 80 ∧
  (∀ b ∈ font, b.toNat % 16 = 0) ∧ (∀ k, State.reset.reg k = 0x00#8) ∧
  State.reset.dt = 0x00#8 ∧ State.reset.st = 0x00#8 ∧ State.reset.i = 0x0000#16 ∧ State.reset.pc = 0x0200#16 ∧
  State.reset.sp = 0#8 ∧ (∀ k : Fin 16, State.reset.stack[k] = 0x0000#16) ∧
  (∀ y x, pixel State.reset.disp y x = false) ∧ (∀ k, State.reset.pressed k = false) ∧ State.reset.fault = none ∧
  ∀ s : State, hostReset s = { State.reset with draws := s.draws }

/-- R52 (rejection of a long ROM: the spec's decision D8): LOAD copies the bytes to 0x200 and touches nothing else, or
fails and touches nothing. -/
def Obligations.LoadCopiesRom : Prop :=
  ∀ (bytes : List Byte) (s : State),
    (bytes.length ≤ 3584 → ∃ t, hostLoad bytes s = .loaded t ∧ MemoryOnly s t ∧
      (∀ k, (h : k < bytes.length) → Memory.read t.mem (0x200 + k) = bytes[k]) ∧
      SameMemoryOutside 0x200 bytes.length s t) ∧
    (3584 < bytes.length → hostLoad bytes s = .romTooLarge ∧ afterLoad bytes s = s)

/-- R171: KEY_WRITE sets that key and nothing else, and no step of the core changes the keypad. -/
def Obligations.KeypadIsWrittenByHostOnly : Prop :=
  (∀ (k : Fin 16) (b : Bool) (s : State), hostKeyWrite k b s = { s with key := (hostKeyWrite k b s).key } ∧
    (hostKeyWrite k b s).pressed k = b ∧ ∀ j, j ≠ k → (hostKeyWrite k b s).pressed j = s.pressed j) ∧
  (∀ s t : State, step s = .next t → t.key = s.key)

/-! ### Progress -/

/-- R7, R8: from every state that meets the machine's invariant, reached by a run or not, the step answers a next state
and that state meets it again. -/
def Obligations.InvariantStatesStepOn : Prop :=
  ∀ s : State, s.Inv → ∃ t, step s = .next t ∧ t.Inv
end

