-- ==== Sys2Proof/Laws/Decode.lean ====
section
/-! SUPPORT. The fields of a word, in arithmetic; the words the encoder builds, and their fields. -/

namespace Sys2Proof

/-- Concatenation puts the first part above the second. -/
theorem toNat_append_bits {n m : Nat} (a : BitVec n) (b : BitVec m) :
    (a ++ b).toNat = a.toNat * 2 ^ m + b.toNat := by
  rw [BitVec.toNat_append, Nat.shiftLeft_eq, Nat.mul_comm, Nat.two_pow_add_eq_or_of_lt b.isLt]

theorem toNat_regBits (x : Reg) : (regBits x).toNat = x.val := by
  simp [regBits]

theorem toNat_wordA (f : BitVec 4) (nnn : BitVec 12) : (wordA f nnn).toNat = f.toNat * 4096 + nnn.toNat :=
  toNat_append_bits f nnn

theorem toNat_wordXB (f : BitVec 4) (x : Reg) (nn : Byte) :
    (wordXB f x nn).toNat = f.toNat * 4096 + x.val * 256 + nn.toNat := by
  refine (toNat_append_bits (f ++ regBits x) nn).trans ?_
  rw [toNat_append_bits, toNat_regBits]
  omega

theorem toNat_wordXYN (f : BitVec 4) (x y : Reg) (n : BitVec 4) :
    (wordXYN f x y n).toNat = f.toNat * 4096 + x.val * 256 + y.val * 16 + n.toNat := by
  refine (toNat_append_bits (f ++ regBits x) (regBits y ++ n)).trans ?_
  rw [toNat_append_bits, toNat_append_bits, toNat_regBits, toNat_regBits]
  omega

theorem toNat_fieldF (w : Word) : (fieldF w).toNat = w.toNat / 2 ^ 12 := by
  have := w.isLt
  simp only [fieldF, BitVec.extractLsb'_toNat, Nat.shiftRight_eq_div_pow]
  omega

theorem val_fieldX (w : Word) : (fieldX w).val = w.toNat / 2 ^ 8 % 16 := by
  simp [fieldX, BitVec.extractLsb'_toNat, Nat.shiftRight_eq_div_pow]

theorem val_fieldY (w : Word) : (fieldY w).val = w.toNat / 2 ^ 4 % 16 := by
  simp [fieldY, BitVec.extractLsb'_toNat, Nat.shiftRight_eq_div_pow]

theorem toNat_fieldN (w : Word) : (fieldN w).toNat = w.toNat % 16 := by
  simp [fieldN, BitVec.extractLsb'_toNat]

theorem toNat_fieldNN (w : Word) : (fieldNN w).toNat = w.toNat % 256 := by
  simp [fieldNN, BitVec.extractLsb'_toNat]

theorem toNat_fieldNNN (w : Word) : (fieldNNN w).toNat = w.toNat % 4096 := by
  simp [fieldNNN, BitVec.extractLsb'_toNat]

theorem fieldF_wordA (f : BitVec 4) (a : BitVec 12) : fieldF (wordA f a) = f := by
  apply BitVec.eq_of_toNat_eq
  rw [toNat_fieldF, toNat_wordA]
  omega

theorem fieldNNN_wordA (f : BitVec 4) (a : BitVec 12) : fieldNNN (wordA f a) = a := by
  apply BitVec.eq_of_toNat_eq
  rw [toNat_fieldNNN, toNat_wordA]
  omega

theorem fieldF_wordXB (f : BitVec 4) (x : Reg) (b : Byte) : fieldF (wordXB f x b) = f := by
  apply BitVec.eq_of_toNat_eq
  rw [toNat_fieldF, toNat_wordXB]
  omega

theorem fieldX_wordXB (f : BitVec 4) (x : Reg) (b : Byte) : fieldX (wordXB f x b) = x := by
  apply Fin.ext
  rw [val_fieldX, toNat_wordXB]
  omega

theorem fieldNN_wordXB (f : BitVec 4) (x : Reg) (b : Byte) : fieldNN (wordXB f x b) = b := by
  apply BitVec.eq_of_toNat_eq
  rw [toNat_fieldNN, toNat_wordXB]
  omega

theorem fieldN_wordXB (f : BitVec 4) (x : Reg) (b : Byte) : fieldN (wordXB f x b) = b.setWidth 4 := by
  apply BitVec.eq_of_toNat_eq
  rw [toNat_fieldN, toNat_wordXB, BitVec.toNat_setWidth]
  omega

theorem fieldF_wordXYN (f : BitVec 4) (x y : Reg) (n : BitVec 4) : fieldF (wordXYN f x y n) = f := by
  apply BitVec.eq_of_toNat_eq
  rw [toNat_fieldF, toNat_wordXYN]
  omega

theorem fieldX_wordXYN (f : BitVec 4) (x y : Reg) (n : BitVec 4) : fieldX (wordXYN f x y n) = x := by
  apply Fin.ext
  rw [val_fieldX, toNat_wordXYN]
  omega

theorem fieldY_wordXYN (f : BitVec 4) (x y : Reg) (n : BitVec 4) : fieldY (wordXYN f x y n) = y := by
  apply Fin.ext
  rw [val_fieldY, toNat_wordXYN]
  omega

theorem fieldN_wordXYN (f : BitVec 4) (x y : Reg) (n : BitVec 4) : fieldN (wordXYN f x y n) = n := by
  apply BitVec.eq_of_toNat_eq
  rw [toNat_fieldN, toNat_wordXYN]
  omega

/-- A word's two bytes give it back (20_memory.md R44). -/
theorem wordOfBytes_bytes (w : Word) : wordOfBytes (firstByte w) (secondByte w) = w := by
  apply BitVec.eq_of_toNat_eq
  refine (toNat_append_bits (firstByte w) (secondByte w)).trans ?_
  have := w.isLt
  simp only [firstByte, secondByte, BitVec.extractLsb'_toNat, Nat.shiftRight_eq_div_pow]
  omega

/-- A field that the mask covers is the field of the masked word. -/
theorem extract_of_mask (w m : Word) (start len : Nat) (h : m.extractLsb' start len = BitVec.allOnes len) :
    (w &&& m).extractLsb' start len = w.extractLsb' start len := by
  rw [BitVec.extractLsb'_and, h, BitVec.and_allOnes]

/-- The family of a word that matches under the mask 0xF000. -/
theorem fieldF_of_mask {w p : Word} (h : w &&& 0xF000#16 = p) : fieldF w = p.extractLsb' 12 4 := by
  rw [← h, extract_of_mask w _ 12 4 (by decide), fieldF]

/-- The family and key nibble of a word that matches under the mask 0xF00F. -/
theorem fields_of_mask_nibble {w p : Word} (h : w &&& 0xF00F#16 = p) :
    fieldF w = p.extractLsb' 12 4 ∧ fieldN w = p.extractLsb' 0 4 := by
  rw [← h, extract_of_mask w _ 12 4 (by decide), extract_of_mask w _ 0 4 (by decide)]
  exact ⟨rfl, rfl⟩

/-- The family and key byte of a word that matches under the mask 0xF0FF. -/
theorem fields_of_mask_byte {w p : Word} (h : w &&& 0xF0FF#16 = p) :
    fieldF w = p.extractLsb' 12 4 ∧ fieldNN w = p.extractLsb' 0 8 := by
  rw [← h, extract_of_mask w _ 12 4 (by decide), extract_of_mask w _ 0 8 (by decide)]
  exact ⟨rfl, rfl⟩

/-- A word is its family over its address field. -/
theorem word_eq_append_address (w : Word) : w = (fieldF w ++ fieldNNN w : BitVec 16) := by
  apply BitVec.eq_of_toNat_eq
  refine Eq.trans ?_ (toNat_append_bits (fieldF w) (fieldNNN w)).symm
  rw [toNat_fieldF, toNat_fieldNNN]
  omega

/-- The word under the family mask. -/
theorem and_family_mask (w : Word) : w &&& 0xF000#16 = fieldF w ++ 0#12 := by
  conv => lhs; rw [word_eq_append_address w]
  refine (BitVec.and_append (x₁ := fieldF w) (x₂ := 0xF#4) (y₁ := fieldNNN w) (y₂ := 0#12)).trans ?_
  rw [show (0xF#4 : BitVec 4) = BitVec.allOnes 4 from rfl, BitVec.and_allOnes, BitVec.and_zero]

/-- The word under the family and key-nibble mask. -/
theorem and_nibble_mask (w : Word) : w &&& 0xF00F#16 = (fieldF w ++ 0#8 : BitVec 12) ++ fieldN w := by
  have h : w = ((fieldF w ++ w.extractLsb' 4 8 : BitVec 12) ++ fieldN w : BitVec 16) := by
    apply BitVec.eq_of_toNat_eq
    refine Eq.trans ?_ (toNat_append_bits (fieldF w ++ w.extractLsb' 4 8) (fieldN w)).symm
    rw [toNat_append_bits, toNat_fieldF, toNat_fieldN, BitVec.extractLsb'_toNat, Nat.shiftRight_eq_div_pow]
    omega
  conv => lhs; rw [h]
  refine (BitVec.and_append (x₁ := fieldF w ++ w.extractLsb' 4 8) (x₂ := 0xF00#12) (y₁ := fieldN w)
    (y₂ := 0xF#4)).trans ?_
  rw [show (0xF#4 : BitVec 4) = BitVec.allOnes 4 from rfl, BitVec.and_allOnes]
  congr 1
  refine (BitVec.and_append (x₁ := fieldF w) (x₂ := 0xF#4) (y₁ := w.extractLsb' 4 8) (y₂ := 0#8)).trans ?_
  rw [show (0xF#4 : BitVec 4) = BitVec.allOnes 4 from rfl, BitVec.and_allOnes, BitVec.and_zero]

/-- The word under the family and key-byte mask. -/
theorem and_byte_mask (w : Word) : w &&& 0xF0FF#16 = (fieldF w ++ 0#4 : BitVec 8) ++ fieldNN w := by
  have h : w = ((fieldF w ++ w.extractLsb' 8 4 : BitVec 8) ++ fieldNN w : BitVec 16) := by
    apply BitVec.eq_of_toNat_eq
    refine Eq.trans ?_ (toNat_append_bits (fieldF w ++ w.extractLsb' 8 4) (fieldNN w)).symm
    rw [toNat_append_bits, toNat_fieldF, toNat_fieldNN, BitVec.extractLsb'_toNat, Nat.shiftRight_eq_div_pow]
    omega
  conv => lhs; rw [h]
  refine (BitVec.and_append (x₁ := fieldF w ++ w.extractLsb' 8 4) (x₂ := 0xF0#8) (y₁ := fieldNN w)
    (y₂ := 0xFF#8)).trans ?_
  rw [show (0xFF#8 : BitVec 8) = BitVec.allOnes 8 from rfl, BitVec.and_allOnes]
  congr 1
  refine (BitVec.and_append (x₁ := fieldF w) (x₂ := 0xF#4) (y₁ := w.extractLsb' 8 4) (y₂ := 0#4)).trans ?_
  rw [show (0xF#4 : BitVec 4) = BitVec.allOnes 4 from rfl, BitVec.and_allOnes, BitVec.and_zero]

end Sys2Proof
end

