-- ==== Sys2Proof/Laws/Memory.lean ====
section
/-! SUPPORT. The laws of memory: a read after a write, every other address kept, and the canonical form. -/

namespace Sys2Proof.Machine

theorem Memory.read_insert (m : Memory) (a : Nat) (b : Byte) (k : Nat) :
    Memory.read (Memory.insert m a b) k = if a = k then b else Memory.read m k := by
  induction m with
  | nil => simp [Memory.insert, Memory.read]
  | cons c m ih =>
    simp only [Memory.insert]
    split
    · simp [Memory.read]
    · split
      · rename_i _ h
        subst h
        by_cases hk : c.1 = k <;> simp [Memory.read, hk]
      · rename_i _ h
        by_cases hk : c.1 = k
        · subst hk
          simp [Memory.read, Ne.symm h]
        · simp [Memory.read, hk, ih]

theorem Memory.read_filter (m : Memory) (a k : Nat) :
    Memory.read (m.filter (fun c => decide (c.1 ≠ a))) k = if a = k then resetByte k else Memory.read m k := by
  induction m with
  | nil => simp [Memory.read]
  | cons c m ih =>
    by_cases hc : c.1 = a
    · rw [List.filter_cons_of_neg (by simp [hc]), ih]
      by_cases hk : a = k
      · simp [hk]
      · simp [Memory.read, hc, hk]
    · rw [List.filter_cons_of_pos (by simp [hc])]
      by_cases hk : c.1 = k
      · subst hk
        simp [Memory.read, Ne.symm hc]
      · simp only [Memory.read, if_neg hk]
        exact ih

/-- A read after a write: the byte written there, the old byte elsewhere. -/
theorem Memory.read_write (m : Memory) (a : Nat) (b : Byte) (k : Nat) :
    Memory.read (Memory.write m a b) k = if a = k then b else Memory.read m k := by
  unfold Memory.write
  split
  · rename_i h
    rw [Memory.read_filter]
    split
    · rename_i hk
      rw [h, hk]
    · rfl
  · exact Memory.read_insert m a b k

@[simp] theorem Memory.read_write_same (m : Memory) (a : Nat) (b : Byte) :
    Memory.read (Memory.write m a b) a = b := by
  simp [Memory.read_write]

theorem Memory.read_write_other (m : Memory) {a k : Nat} (b : Byte) (h : a ≠ k) :
    Memory.read (Memory.write m a b) k = Memory.read m k := by
  simp [Memory.read_write, h]

@[simp] theorem Memory.length_readBytes (m : Memory) (a n : Nat) : (Memory.readBytes m a n).length = n := by
  induction n generalizing a with
  | zero => rfl
  | succ n ih => simp [Memory.readBytes, ih]

theorem Memory.getElem_readBytes (m : Memory) (a n j : Nat) (h : j < (Memory.readBytes m a n).length) :
    (Memory.readBytes m a n)[j] = Memory.read m (a + j) := by
  induction n generalizing a j with
  | zero => simp [Memory.readBytes] at h
  | succ n ih =>
    cases j with
    | zero => rfl
    | succ j =>
      simp only [Memory.readBytes, List.getElem_cons_succ]
      rw [ih]
      congr 1
      omega

/-- Outside the bytes written, a block write leaves memory alone. -/
theorem Memory.read_writeBytes_outside (m : Memory) (a : Nat) (bs : List Byte) (k : Nat)
    (h : k < a ∨ a + bs.length ≤ k) : Memory.read (Memory.writeBytes m a bs) k = Memory.read m k := by
  induction bs generalizing m a with
  | nil => rfl
  | cons b bs ih =>
    simp only [List.length_cons] at h
    simp only [Memory.writeBytes]
    rw [ih _ _ (by omega), Memory.read_write_other _ _ (by omega)]

/-- Inside, byte `j` of the block stands at `a + j`. -/
theorem Memory.read_writeBytes_inside (m : Memory) (a : Nat) (bs : List Byte) (j : Nat) (h : j < bs.length) :
    Memory.read (Memory.writeBytes m a bs) (a + j) = bs[j] := by
  induction bs generalizing m a j with
  | nil => simp at h
  | cons b bs ih =>
    simp only [Memory.writeBytes]
    cases j with
    | zero => rw [Memory.read_writeBytes_outside _ _ _ _ (by omega)]; simp
    | succ j =>
      have := ih (Memory.write m a b) (a + 1) j (by simpa using h)
      rw [show a + 1 + j = a + (j + 1) by omega] at this
      simpa using this

theorem Memory.mem_insert {m : Memory} {a : Nat} {b : Byte} {c : Host.Cell}
    (h : c ∈ Memory.insert m a b) : c = (a, b) ∨ c ∈ m := by
  induction m with
  | nil => simpa [Memory.insert] using h
  | cons d m ih =>
    simp only [Memory.insert] at h
    split at h
    · simpa using h
    · split at h
      · rcases List.mem_cons.1 h with h | h
        · exact .inl h
        · exact .inr (List.mem_cons_of_mem _ h)
      · rcases List.mem_cons.1 h with h | h
        · exact .inr (h ▸ List.mem_cons_self)
        · exact (ih h).imp id (List.mem_cons_of_mem _)

theorem Memory.pairwise_insert {m : Memory} (a : Nat) (b : Byte)
    (h : m.Pairwise (fun c d => c.1 < d.1)) : (Memory.insert m a b).Pairwise (fun c d => c.1 < d.1) := by
  induction m with
  | nil => simp [Memory.insert]
  | cons d m ih =>
    obtain ⟨hd, hm⟩ := List.pairwise_cons.1 h
    simp only [Memory.insert]
    split
    · rename_i hlt
      refine List.pairwise_cons.2 ⟨fun c hc => ?_, h⟩
      rcases List.mem_cons.1 hc with rfl | hc
      · exact hlt
      · exact Nat.lt_trans hlt (hd c hc)
    · split
      · rename_i _ he
        refine List.pairwise_cons.2 ⟨fun c hc => ?_, hm⟩
        simpa [he] using hd c hc
      · refine List.pairwise_cons.2 ⟨fun c hc => ?_, ih hm⟩
        rcases Memory.mem_insert hc with rfl | hc
        · simp only
          omega
        · exact hd c hc

/-- A write keeps the canonical form. -/
theorem Memory.wf_write {m : Memory} {a : Nat} (b : Byte) (h : Memory.wf m) (ha : a < Config.memSize) :
    Memory.wf (Memory.write m a b) := by
  unfold Memory.write
  split
  · exact ⟨h.1.filter _, fun c hc => h.2 c (List.mem_of_mem_filter hc)⟩
  · rename_i hb
    refine ⟨Memory.pairwise_insert a b h.1, fun c hc => ?_⟩
    rcases Memory.mem_insert hc with rfl | hc
    · exact ⟨ha, hb⟩
    · exact h.2 c hc

/-- A block write inside the address space keeps the canonical form. -/
theorem Memory.wf_writeBytes {m : Memory} {a : Nat} (bs : List Byte) (h : Memory.wf m)
    (ha : bs = [] ∨ a + bs.length ≤ Config.memSize) : Memory.wf (Memory.writeBytes m a bs) := by
  induction bs generalizing m a with
  | nil => exact h
  | cons b bs ih =>
    have hlen : a + (bs.length + 1) ≤ Config.memSize := by simpa using ha
    exact ih (Memory.wf_write b h (by omega)) (.inr (by omega))

/-- Two canonical memories that read alike are equal: equal memories are equal data. -/
theorem Memory.ext_read {m m' : Memory} (h : Memory.wf m) (h' : Memory.wf m')
    (heq : ∀ a, Memory.read m a = Memory.read m' a) : m = m' := by
  have below : ∀ (m : Memory) (a : Nat), (∀ c ∈ m, a < c.1) → Memory.read m a = resetByte a := by
    intro m a hm
    induction m with
    | nil => rfl
    | cons c m ih =>
      have hc := hm c List.mem_cons_self
      simp only [Memory.read, if_neg (by omega : ¬ c.1 = a)]
      exact ih fun d hd => hm d (List.mem_cons_of_mem _ hd)
  induction m generalizing m' with
  | nil =>
    cases m' with
    | nil => rfl
    | cons c m' =>
      have := heq c.1
      simp only [Memory.read, if_pos] at this
      exact absurd this.symm (h'.2 c List.mem_cons_self).2
  | cons c m ih =>
    cases m' with
    | nil =>
      have := heq c.1
      simp only [Memory.read, if_pos] at this
      exact absurd this (h.2 c List.mem_cons_self).2
    | cons d m' =>
      obtain ⟨hc, hm⟩ := List.pairwise_cons.1 h.1
      obtain ⟨hd, hm'⟩ := List.pairwise_cons.1 h'.1
      have hcd : c.1 = d.1 := by
        rcases Nat.lt_trichotomy c.1 d.1 with hlt | he | hgt
        · exfalso
          have hb := below (d :: m') c.1 (fun e he => by
            rcases List.mem_cons.1 he with rfl | he
            · exact hlt
            · exact Nat.lt_trans hlt (hd e he))
          have := heq c.1
          rw [hb] at this
          simp only [Memory.read, if_pos] at this
          exact (h.2 c List.mem_cons_self).2 this
        · exact he
        · exfalso
          have hb := below (c :: m) d.1 (fun e he => by
            rcases List.mem_cons.1 he with rfl | he
            · exact hgt
            · exact Nat.lt_trans hgt (hc e he))
          have := heq d.1
          rw [hb] at this
          simp only [Memory.read, if_pos] at this
          exact (h'.2 d List.mem_cons_self).2 this.symm
      have hval : c.2 = d.2 := by
        have := heq c.1
        simpa [Memory.read, hcd] using this
      have htail : m = m' := by
        refine ih ⟨hm, fun e he => h.2 e (List.mem_cons_of_mem _ he)⟩
          ⟨hm', fun e he => h'.2 e (List.mem_cons_of_mem _ he)⟩ fun a => ?_
        by_cases ha : c.1 = a
        · rw [below m a (fun e he => ha ▸ hc e he), below m' a (fun e he => ha ▸ hcd ▸ hd e he)]
        · have := heq a
          simpa [Memory.read, ha, hcd ▸ ha] using this
      rw [htail, Prod.ext hcd hval]

theorem reset_memory_wf : Memory.wf State.reset.mem := by decide

end Sys2Proof.Machine
end

