-- ==== Sys2Proof/Laws/State.lean ====
section
/-! SUPPORT. What each named update of State does to each field: true by `rfl`, for `simp`. -/

namespace Sys2Proof.Machine

@[simp] theorem State.setReg_mem (s : State) (x : Reg) (b : Byte) : (s.setReg x b).mem = s.mem := rfl
@[simp] theorem State.setReg_v (s : State) (x : Reg) (b : Byte) : (s.setReg x b).v = s.v.set x b := rfl
@[simp] theorem State.setReg_i (s : State) (x : Reg) (b : Byte) : (s.setReg x b).i = s.i := rfl
@[simp] theorem State.setReg_pc (s : State) (x : Reg) (b : Byte) : (s.setReg x b).pc = s.pc := rfl
@[simp] theorem State.setReg_stack (s : State) (x : Reg) (b : Byte) : (s.setReg x b).stack = s.stack := rfl
@[simp] theorem State.setReg_sp (s : State) (x : Reg) (b : Byte) : (s.setReg x b).sp = s.sp := rfl
@[simp] theorem State.setReg_dt (s : State) (x : Reg) (b : Byte) : (s.setReg x b).dt = s.dt := rfl
@[simp] theorem State.setReg_st (s : State) (x : Reg) (b : Byte) : (s.setReg x b).st = s.st := rfl
@[simp] theorem State.setReg_disp (s : State) (x : Reg) (b : Byte) : (s.setReg x b).disp = s.disp := rfl
@[simp] theorem State.setReg_key (s : State) (x : Reg) (b : Byte) : (s.setReg x b).key = s.key := rfl
@[simp] theorem State.setReg_fault (s : State) (x : Reg) (b : Byte) : (s.setReg x b).fault = s.fault := rfl
@[simp] theorem State.setReg_draws (s : State) (x : Reg) (b : Byte) : (s.setReg x b).draws = s.draws := rfl
@[simp] theorem State.setReg_pressed (s : State) (x : Reg) (b : Byte) (j : Fin 16) : (s.setReg x b).pressed j = s.pressed j := rfl

@[simp] theorem State.advance_mem (s : State) : s.advance.mem = s.mem := rfl
@[simp] theorem State.advance_v (s : State) : s.advance.v = s.v := rfl
@[simp] theorem State.advance_i (s : State) : s.advance.i = s.i := rfl
@[simp] theorem State.advance_pc (s : State) : s.advance.pc = s.pc + 2#16 := rfl
@[simp] theorem State.advance_stack (s : State) : s.advance.stack = s.stack := rfl
@[simp] theorem State.advance_sp (s : State) : s.advance.sp = s.sp := rfl
@[simp] theorem State.advance_dt (s : State) : s.advance.dt = s.dt := rfl
@[simp] theorem State.advance_st (s : State) : s.advance.st = s.st := rfl
@[simp] theorem State.advance_disp (s : State) : s.advance.disp = s.disp := rfl
@[simp] theorem State.advance_key (s : State) : s.advance.key = s.key := rfl
@[simp] theorem State.advance_fault (s : State) : s.advance.fault = s.fault := rfl
@[simp] theorem State.advance_draws (s : State) : s.advance.draws = s.draws := rfl
@[simp] theorem State.advance_reg (s : State) (j : Reg) : s.advance.reg j = s.reg j := rfl
@[simp] theorem State.advance_pressed (s : State) (j : Fin 16) : s.advance.pressed j = s.pressed j := rfl

@[simp] theorem takeFault_mem (p : Word) (c : Cause) (n : Nat) (s : State) : (takeFault p c n s).mem = s.mem := rfl
@[simp] theorem takeFault_v (p : Word) (c : Cause) (n : Nat) (s : State) : (takeFault p c n s).v = s.v := rfl
@[simp] theorem takeFault_i (p : Word) (c : Cause) (n : Nat) (s : State) : (takeFault p c n s).i = s.i := rfl
@[simp] theorem takeFault_pc (p : Word) (c : Cause) (n : Nat) (s : State) : (takeFault p c n s).pc = p := rfl
@[simp] theorem takeFault_stack (p : Word) (c : Cause) (n : Nat) (s : State) : (takeFault p c n s).stack = s.stack := rfl
@[simp] theorem takeFault_sp (p : Word) (c : Cause) (n : Nat) (s : State) : (takeFault p c n s).sp = s.sp := rfl
@[simp] theorem takeFault_dt (p : Word) (c : Cause) (n : Nat) (s : State) : (takeFault p c n s).dt = s.dt := rfl
@[simp] theorem takeFault_st (p : Word) (c : Cause) (n : Nat) (s : State) : (takeFault p c n s).st = s.st := rfl
@[simp] theorem takeFault_disp (p : Word) (c : Cause) (n : Nat) (s : State) : (takeFault p c n s).disp = s.disp := rfl
@[simp] theorem takeFault_key (p : Word) (c : Cause) (n : Nat) (s : State) : (takeFault p c n s).key = s.key := rfl
@[simp] theorem takeFault_fault (p : Word) (c : Cause) (n : Nat) (s : State) : (takeFault p c n s).fault = some { cause := c, pc := p, info := n } := rfl
@[simp] theorem takeFault_draws (p : Word) (c : Cause) (n : Nat) (s : State) : (takeFault p c n s).draws = s.draws := rfl
@[simp] theorem takeFault_reg (p : Word) (c : Cause) (n : Nat) (s : State) (j : Reg) : (takeFault p c n s).reg j = s.reg j := rfl
@[simp] theorem takeFault_pressed (p : Word) (c : Cause) (n : Nat) (s : State) (j : Fin 16) : (takeFault p c n s).pressed j = s.pressed j := rfl

@[simp] theorem State.setRegFlag_mem (s : State) (x : Reg) (b : Byte) (f : Bool) : (s.setRegFlag x b f).mem = s.mem := rfl
@[simp] theorem State.setRegFlag_v (s : State) (x : Reg) (b : Byte) (f : Bool) : (s.setRegFlag x b f).v = (s.v.set x b).set vf (flagByte f) := rfl
@[simp] theorem State.setRegFlag_i (s : State) (x : Reg) (b : Byte) (f : Bool) : (s.setRegFlag x b f).i = s.i := rfl
@[simp] theorem State.setRegFlag_pc (s : State) (x : Reg) (b : Byte) (f : Bool) : (s.setRegFlag x b f).pc = s.pc := rfl
@[simp] theorem State.setRegFlag_stack (s : State) (x : Reg) (b : Byte) (f : Bool) : (s.setRegFlag x b f).stack = s.stack := rfl
@[simp] theorem State.setRegFlag_sp (s : State) (x : Reg) (b : Byte) (f : Bool) : (s.setRegFlag x b f).sp = s.sp := rfl
@[simp] theorem State.setRegFlag_dt (s : State) (x : Reg) (b : Byte) (f : Bool) : (s.setRegFlag x b f).dt = s.dt := rfl
@[simp] theorem State.setRegFlag_st (s : State) (x : Reg) (b : Byte) (f : Bool) : (s.setRegFlag x b f).st = s.st := rfl
@[simp] theorem State.setRegFlag_disp (s : State) (x : Reg) (b : Byte) (f : Bool) : (s.setRegFlag x b f).disp = s.disp := rfl
@[simp] theorem State.setRegFlag_key (s : State) (x : Reg) (b : Byte) (f : Bool) : (s.setRegFlag x b f).key = s.key := rfl
@[simp] theorem State.setRegFlag_fault (s : State) (x : Reg) (b : Byte) (f : Bool) : (s.setRegFlag x b f).fault = s.fault := rfl
@[simp] theorem State.setRegFlag_draws (s : State) (x : Reg) (b : Byte) (f : Bool) : (s.setRegFlag x b f).draws = s.draws := rfl
@[simp] theorem State.setRegFlag_pressed (s : State) (x : Reg) (b : Byte) (f : Bool) (j : Fin 16) : (s.setRegFlag x b f).pressed j = s.pressed j := rfl

@[simp] theorem pushAndJump_mem (s : State) (h : s.sp.toNat < 16) (p : Word) : (pushAndJump s h p).mem = s.mem := rfl
@[simp] theorem pushAndJump_v (s : State) (h : s.sp.toNat < 16) (p : Word) : (pushAndJump s h p).v = s.v := rfl
@[simp] theorem pushAndJump_i (s : State) (h : s.sp.toNat < 16) (p : Word) : (pushAndJump s h p).i = s.i := rfl
@[simp] theorem pushAndJump_pc (s : State) (h : s.sp.toNat < 16) (p : Word) : (pushAndJump s h p).pc = p := rfl
@[simp] theorem pushAndJump_stack (s : State) (h : s.sp.toNat < 16) (p : Word) : (pushAndJump s h p).stack = s.stack.set s.sp.toNat s.pc := rfl
@[simp] theorem pushAndJump_sp (s : State) (h : s.sp.toNat < 16) (p : Word) : (pushAndJump s h p).sp = s.sp + 1#8 := rfl
@[simp] theorem pushAndJump_dt (s : State) (h : s.sp.toNat < 16) (p : Word) : (pushAndJump s h p).dt = s.dt := rfl
@[simp] theorem pushAndJump_st (s : State) (h : s.sp.toNat < 16) (p : Word) : (pushAndJump s h p).st = s.st := rfl
@[simp] theorem pushAndJump_disp (s : State) (h : s.sp.toNat < 16) (p : Word) : (pushAndJump s h p).disp = s.disp := rfl
@[simp] theorem pushAndJump_key (s : State) (h : s.sp.toNat < 16) (p : Word) : (pushAndJump s h p).key = s.key := rfl
@[simp] theorem pushAndJump_fault (s : State) (h : s.sp.toNat < 16) (p : Word) : (pushAndJump s h p).fault = s.fault := rfl
@[simp] theorem pushAndJump_draws (s : State) (h : s.sp.toNat < 16) (p : Word) : (pushAndJump s h p).draws = s.draws := rfl
@[simp] theorem pushAndJump_reg (s : State) (h : s.sp.toNat < 16) (p : Word) (j : Reg) : (pushAndJump s h p).reg j = s.reg j := rfl
@[simp] theorem pushAndJump_pressed (s : State) (h : s.sp.toNat < 16) (p : Word) (j : Fin 16) : (pushAndJump s h p).pressed j = s.pressed j := rfl

@[simp] theorem popAndJump_mem (s : State) (h : s.sp.toNat - 1 < 16) : (popAndJump s h).mem = s.mem := rfl
@[simp] theorem popAndJump_v (s : State) (h : s.sp.toNat - 1 < 16) : (popAndJump s h).v = s.v := rfl
@[simp] theorem popAndJump_i (s : State) (h : s.sp.toNat - 1 < 16) : (popAndJump s h).i = s.i := rfl
@[simp] theorem popAndJump_pc (s : State) (h : s.sp.toNat - 1 < 16) : (popAndJump s h).pc = s.stack[s.sp.toNat - 1] := rfl
@[simp] theorem popAndJump_stack (s : State) (h : s.sp.toNat - 1 < 16) : (popAndJump s h).stack = s.stack := rfl
@[simp] theorem popAndJump_sp (s : State) (h : s.sp.toNat - 1 < 16) : (popAndJump s h).sp = s.sp - 1#8 := rfl
@[simp] theorem popAndJump_dt (s : State) (h : s.sp.toNat - 1 < 16) : (popAndJump s h).dt = s.dt := rfl
@[simp] theorem popAndJump_st (s : State) (h : s.sp.toNat - 1 < 16) : (popAndJump s h).st = s.st := rfl
@[simp] theorem popAndJump_disp (s : State) (h : s.sp.toNat - 1 < 16) : (popAndJump s h).disp = s.disp := rfl
@[simp] theorem popAndJump_key (s : State) (h : s.sp.toNat - 1 < 16) : (popAndJump s h).key = s.key := rfl
@[simp] theorem popAndJump_fault (s : State) (h : s.sp.toNat - 1 < 16) : (popAndJump s h).fault = s.fault := rfl
@[simp] theorem popAndJump_draws (s : State) (h : s.sp.toNat - 1 < 16) : (popAndJump s h).draws = s.draws := rfl
@[simp] theorem popAndJump_reg (s : State) (h : s.sp.toNat - 1 < 16) (j : Reg) : (popAndJump s h).reg j = s.reg j := rfl
@[simp] theorem popAndJump_pressed (s : State) (h : s.sp.toNat - 1 < 16) (j : Fin 16) : (popAndJump s h).pressed j = s.pressed j := rfl

@[simp] theorem tick_mem (s : State) : (tick s).mem = s.mem := rfl
@[simp] theorem tick_v (s : State) : (tick s).v = s.v := rfl
@[simp] theorem tick_i (s : State) : (tick s).i = s.i := rfl
@[simp] theorem tick_pc (s : State) : (tick s).pc = s.pc := rfl
@[simp] theorem tick_stack (s : State) : (tick s).stack = s.stack := rfl
@[simp] theorem tick_sp (s : State) : (tick s).sp = s.sp := rfl
@[simp] theorem tick_dt (s : State) : (tick s).dt = countDown s.dt := rfl
@[simp] theorem tick_st (s : State) : (tick s).st = countDown s.st := rfl
@[simp] theorem tick_disp (s : State) : (tick s).disp = s.disp := rfl
@[simp] theorem tick_key (s : State) : (tick s).key = s.key := rfl
@[simp] theorem tick_fault (s : State) : (tick s).fault = s.fault := rfl
@[simp] theorem tick_draws (s : State) : (tick s).draws = s.draws := rfl
@[simp] theorem tick_reg (s : State) (j : Reg) : (tick s).reg j = s.reg j := rfl
@[simp] theorem tick_pressed (s : State) (j : Fin 16) : (tick s).pressed j = s.pressed j := rfl

@[simp] theorem hostKeyWrite_mem (k : Fin 16) (b : Bool) (s : State) : (hostKeyWrite k b s).mem = s.mem := rfl
@[simp] theorem hostKeyWrite_v (k : Fin 16) (b : Bool) (s : State) : (hostKeyWrite k b s).v = s.v := rfl
@[simp] theorem hostKeyWrite_i (k : Fin 16) (b : Bool) (s : State) : (hostKeyWrite k b s).i = s.i := rfl
@[simp] theorem hostKeyWrite_pc (k : Fin 16) (b : Bool) (s : State) : (hostKeyWrite k b s).pc = s.pc := rfl
@[simp] theorem hostKeyWrite_stack (k : Fin 16) (b : Bool) (s : State) : (hostKeyWrite k b s).stack = s.stack := rfl
@[simp] theorem hostKeyWrite_sp (k : Fin 16) (b : Bool) (s : State) : (hostKeyWrite k b s).sp = s.sp := rfl
@[simp] theorem hostKeyWrite_dt (k : Fin 16) (b : Bool) (s : State) : (hostKeyWrite k b s).dt = s.dt := rfl
@[simp] theorem hostKeyWrite_st (k : Fin 16) (b : Bool) (s : State) : (hostKeyWrite k b s).st = s.st := rfl
@[simp] theorem hostKeyWrite_disp (k : Fin 16) (b : Bool) (s : State) : (hostKeyWrite k b s).disp = s.disp := rfl
@[simp] theorem hostKeyWrite_key (k : Fin 16) (b : Bool) (s : State) : (hostKeyWrite k b s).key = s.key.set k b := rfl
@[simp] theorem hostKeyWrite_fault (k : Fin 16) (b : Bool) (s : State) : (hostKeyWrite k b s).fault = s.fault := rfl
@[simp] theorem hostKeyWrite_draws (k : Fin 16) (b : Bool) (s : State) : (hostKeyWrite k b s).draws = s.draws := rfl
@[simp] theorem hostKeyWrite_reg (k : Fin 16) (b : Bool) (s : State) (j : Reg) : (hostKeyWrite k b s).reg j = s.reg j := rfl

end Sys2Proof.Machine
end

