-- ==== Sys2Proof/Laws/Ops.lean ====
section
/-! SUPPORT. What each shared operation can do, once: registers, flags, pixels, keys, bounds, transfers, the cycle. -/

namespace Sys2Proof.Machine

/-! ### Registers and flags -/

theorem State.reg_setReg (s : State) (x : Reg) (b : Byte) (k : Reg) :
    (s.setReg x b).reg k = if k = x then b else s.reg k := by
  by_cases h : k = x
  · subst h
    simp [State.reg, State.setReg]
  · have h' : ¬ x.val = k.val := fun e => h (Fin.ext e.symm)
    simp [State.reg, State.setReg, h, h']

@[simp] theorem State.reg_setReg_same (s : State) (x : Reg) (b : Byte) : (s.setReg x b).reg x = b := by
  simp [State.reg_setReg]

theorem State.reg_setReg_other (s : State) {x k : Reg} (b : Byte) (h : k ≠ x) :
    (s.setReg x b).reg k = s.reg k := by
  simp [State.reg_setReg, h]

/-- The result goes to X, then the flag to VF: the flag wins where they meet (R110). -/
theorem State.reg_setRegFlag (s : State) (x : Reg) (b : Byte) (f : Bool) (k : Reg) :
    (s.setRegFlag x b f).reg k = if k = vf then flagByte f else if k = x then b else s.reg k := by
  simp [State.setRegFlag, State.reg_setReg]

@[simp] theorem toNat_flagByte (c : Bool) : (flagByte c).toNat = if c then 1 else 0 := by
  cases c <;> rfl

theorem toNat_zextAddr (nnn : BitVec 12) : (zextAddr nnn).toNat = nnn.toNat := by
  rw [zextAddr, BitVec.toNat_setWidth]
  omega

theorem toNat_zextByte (b : Byte) : (zextByte b).toNat = b.toNat := by
  rw [zextByte, BitVec.toNat_setWidth]
  omega

/-- Neither operand form of JP V0 and LD F overflows 16 bits (R94, R132). -/
theorem toNat_offsetTarget (nnn : BitVec 12) (s : State) :
    (offsetTarget nnn s).toNat = nnn.toNat + (s.reg 0).toNat := by
  have h1 := nnn.isLt
  have h2 := (s.reg 0).isLt
  rw [offsetTarget, BitVec.toNat_add, toNat_zextAddr, toNat_zextByte]
  omega

theorem toNat_glyphAddress (b : Byte) : (glyphAddress b).toNat = 0x050 + 5 * b.toNat := by
  have h := b.isLt
  rw [glyphAddress, BitVec.toNat_add, BitVec.toNat_mul, toNat_zextByte]
  simp only [Config.fontBase, BitVec.toNat_ofNat]
  omega

theorem length_blockRegs (s : State) (x : Reg) : (blockRegs s x).length = x.val + 1 := by
  simp [blockRegs]

/-- Byte `k` of a block transfer is `V[k]`. -/
theorem getElem_blockRegs (s : State) (x k : Reg) (h : k.val < (blockRegs s x).length) :
    (blockRegs s x)[k.val] = s.reg k := by
  simp [blockRegs, State.reg]

theorem reg_loadedRegs (s : State) (x k : Reg) :
    (loadedRegs s x)[k] = if k ≤ x then Memory.read s.mem (s.i.toNat + k.val) else s.reg k := by
  simp [loadedRegs]

/-! ### Keys -/

theorem keyIndex_eq_some {b : Byte} {k : Fin 16} : keyIndex b = some k ↔ b.toNat = k.val := by
  unfold keyIndex
  split
  · simp [Fin.ext_iff]
  · simp
    omega

theorem keyIndex_eq_none {b : Byte} : keyIndex b = none ↔ 15 < b.toNat := by
  unfold keyIndex
  split
  · simp
    omega
  · simp
    omega

/-- The least pressed key: pressed, and no lesser one is (R150). -/
theorem State.leastPressed_eq_some {s : State} {k : Fin 16} :
    s.leastPressed = some k ↔ s.pressed k = true ∧ ∀ j, j < k → s.pressed j = false := by
  unfold State.leastPressed
  rw [List.find?_eq_some_iff_getElem]
  constructor
  · rintro ⟨hk, i, hi, he, hlt⟩
    simp only [List.getElem_finRange] at he
    refine ⟨hk, fun j hj => ?_⟩
    have := hlt j.val (by
      have h1 : i = k.val := by simpa using congrArg Fin.val he
      have h2 : j.val < k.val := hj
      omega)
    simpa using this
  · rintro ⟨hk, hlt⟩
    refine ⟨hk, k.val, by simp, by simp, fun j hj => ?_⟩
    have := hlt ⟨j, by omega⟩ hj
    simpa using this

theorem State.leastPressed_eq_none {s : State} : s.leastPressed = none ↔ ∀ k, s.pressed k = false := by
  simp [State.leastPressed]

/-! ### Pixels -/

theorem pixel_flipPixel (d : Display) (y : Fin 32) (x : Fin 64) (py : Fin 32) (px : Fin 64) :
    pixel (flipPixel d y x) py px = if py = y ∧ px = x then !pixel d py px else pixel d py px := by
  by_cases hy : py = y
  · subst hy
    by_cases hx : px = x
    · subst hx
      simp [pixel, flipPixel]
    · have hx' : ¬ x.val = px.val := fun e => hx (Fin.ext e.symm)
      simp [pixel, flipPixel, hx, hx']
  · have hy' : ¬ y.val = py.val := fun e => hy (Fin.ext e.symm)
    simp [pixel, flipPixel, hy, hy']

theorem pixel_blankDisplay (y : Fin 32) (x : Fin 64) : pixel blankDisplay y x = false := by
  simp [pixel, blankDisplay]

/-- Displays with the same pixels are equal. -/
theorem display_ext {d d' : Display} (h : ∀ y x, pixel d y x = pixel d' y x) : d = d' := by
  apply Vector.ext
  intro y hy
  apply Vector.ext
  intro x hx
  exact h ⟨y, hy⟩ ⟨x, hx⟩

/-! ### Outcomes of the shared operations -/

/-- A raised fault is a next state: the latch set, `PC` back at `pc0`, all else kept (R86). -/
theorem raise_eq (c : Cause) (info : Nat) (s : State) :
    raise c info s = .next { s with pc := s.pc0, fault := some { cause := c, pc := s.pc0, info := info } } := rfl

theorem outOfRange_eq_true {base n : Nat} : outOfRange base n = true ↔ 0 < n ∧ 4096 < base + n :=
  decide_eq_true_iff

theorem outOfRange_eq_false {base n : Nat} : outOfRange base n = false ↔ n = 0 ∨ base + n ≤ 4096 := by
  rw [← Bool.not_eq_true, outOfRange_eq_true]
  omega

/-- A guarded access: the fault with nothing written, or the access (R43). -/
theorem guardRange_cases (base n : Nat) (s : State) (r : Result) :
    (0 < n ∧ 4096 < base + n ∧ guardRange base n s r = raise .addressOutOfRange (max base 4096) s) ∨
    ((n = 0 ∨ base + n ≤ 4096) ∧ guardRange base n s r = r) := by
  unfold guardRange
  cases h : outOfRange base n
  · exact .inr ⟨outOfRange_eq_false.1 h, rfl⟩
  · obtain ⟨h0, h1⟩ := outOfRange_eq_true.1 h
    exact .inl ⟨h0, h1, rfl⟩

/-- A store at `I`: the fault, or the bytes in memory and nothing else changed (R43). -/
theorem storeAtI_cases (bs : List Byte) (s : State) :
    (0 < bs.length ∧ 4096 < s.i.toNat + bs.length ∧
      storeAtI bs s = raise .addressOutOfRange (max s.i.toNat 4096) s) ∨
    ((bs.length = 0 ∨ s.i.toNat + bs.length ≤ 4096) ∧
      storeAtI bs s = .next { s with mem := Memory.writeBytes s.mem s.i.toNat bs }) :=
  guardRange_cases _ _ _ _

/-- A skip: `PC` two further on, or nothing (R106). -/
theorem skipIf_cases (c : Bool) (s : State) :
    (c = true ∧ skipIf c s = .next { s with pc := s.pc + 2#16 }) ∨ (c = false ∧ skipIf c s = .next s) := by
  cases c
  · exact .inr ⟨rfl, rfl⟩
  · exact .inl ⟨rfl, rfl⟩

/-- A key skip: the fault, a skip, or nothing (R104, R105). -/
theorem skipOnKey_cases (x : Reg) (down : Bool) (s : State) :
    (15 < (s.reg x).toNat ∧ skipOnKey x down s = raise .keyIndexOutOfRange (s.reg x).toNat s) ∨
    (∃ k : Fin 16, (s.reg x).toNat = k.val ∧ s.pressed k = down ∧
      skipOnKey x down s = .next { s with pc := s.pc + 2#16 }) ∨
    (∃ k : Fin 16, (s.reg x).toNat = k.val ∧ s.pressed k ≠ down ∧ skipOnKey x down s = .next s) := by
  unfold skipOnKey
  cases h : keyIndex (s.reg x) with
  | none => exact .inl ⟨keyIndex_eq_none.1 h, rfl⟩
  | some k =>
    refine .inr ?_
    have hk := keyIndex_eq_some.1 h
    by_cases hp : s.pressed k = down
    · exact .inl ⟨k, hk, hp, by simp [skipIf, hp, State.advance]⟩
    · exact .inr ⟨k, hk, hp, by simp [skipIf, hp]⟩

/-! ### The cycle -/

/-- One tick of a timer: one less, never below 0 (R84). -/
theorem toNat_countDown (t : Byte) : (countDown t).toNat = t.toNat - 1 := by
  unfold countDown
  split
  · rename_i h
    simp [h]
  · rename_i h
    have h0 : t.toNat ≠ 0 := fun e => h (BitVec.eq_of_toNat_eq (by simpa using e))
    have := t.isLt
    rw [BitVec.toNat_sub]
    simp only [BitVec.toNat_ofNat]
    omega

theorem countDown_eq (t : Byte) : countDown t = BitVec.ofNat 8 (t.toNat - 1) := by
  apply BitVec.eq_of_toNat_eq
  rw [toNat_countDown, BitVec.toNat_ofNat]
  have := t.isLt
  omega

theorem fetch_eq_some {s : State} (h : s.pc.toNat ≤ 4094) : fetch s = some (fetchedWord s) := by
  rw [fetch, outOfRange_eq_false.2 (by omega)]
  rfl

theorem fetch_eq_none {s : State} (h : 4095 ≤ s.pc.toNat) : fetch s = none := by
  rw [fetch, outOfRange_eq_true.2 (by omega)]
  rfl

/-- Everything a step that answers a next state can have done. -/
theorem step_cases {s t : State} (h : step s = .next t) :
    (s.fault ≠ none ∧ t = s) ∨
    (s.fault = none ∧ 4095 ≤ s.pc.toNat ∧ t = fetchFault s) ∨
    (s.fault = none ∧ s.pc.toNat ≤ 4094 ∧ ∃ u, exec (decodeWord (fetchedWord s)) s.advance = .next u ∧
      ((u.fault ≠ none ∧ t = u) ∨ (u.fault = none ∧ t = tick u))) := by
  unfold step at h
  split at h
  · rename_i r hr
    injection h with h
    exact .inl ⟨by simp [hr], h.symm⟩
  · rename_i hn
    refine .inr ?_
    by_cases hp : s.pc.toNat ≤ 4094
    · rw [fetch_eq_some hp] at h
      refine .inr ⟨hn, hp, ?_⟩
      simp only at h
      cases he : exec (decodeWord (fetchedWord s)) s.advance with
      | next u =>
        rw [he, finishCycle] at h
        injection h with h
        refine ⟨u, rfl, ?_⟩
        cases hu : u.fault with
        | none => exact .inr ⟨rfl, by simpa [hu] using h.symm⟩
        | some r => exact .inl ⟨by simp, by simpa [hu] using h.symm⟩
      | fault f => rw [he] at h; cases h
      | refused r => rw [he] at h; cases h
    · rw [fetch_eq_none (by omega)] at h
      injection h with h
      exact .inl ⟨hn, by omega, h.symm⟩

/-- A step of a running core whose fetch succeeds is the decoded instruction on the advanced `PC`, then the tick. -/
theorem step_running {s : State} (hf : s.fault = none) (hp : s.pc.toNat ≤ 4094) :
    step s = finishCycle (exec (decodeWord (fetchedWord s)) s.advance) := by
  unfold step
  rw [hf]
  simp only [fetch_eq_some hp]

end Sys2Proof.Machine
end

