-- ==== Sys2Proof/Laws/Draw.lean ====
section
/-! SUPPORT. What the draw loop does: each covered pixel is flipped once, and the flag says whether one was lit. -/

namespace Sys2Proof.Machine

theorem spriteX_inj {sx : Byte} {c d : Nat} (hc : c < 8) (hd : d < 8) (h : spriteX sx c = spriteX sx d) : c = d := by
  have := congrArg Fin.val h
  simp only [spriteX, Fin.val_ofNat] at this
  omega

theorem spriteY_inj {sy : Byte} {r q : Nat} (hr : r < 32) (hq : q < 32) (h : spriteY sy r = spriteY sy q) : r = q := by
  have := congrArg Fin.val h
  simp only [spriteY, Fin.val_ofNat] at this
  omega

/-- The first `k` columns of one sprite row lie on the pixel. -/
def rowCovers (b : Byte) (y : Fin 32) (sx : Byte) (k : Nat) (py : Fin 32) (px : Fin 64) : Prop :=
  py = y ∧ ∃ col, col < k ∧ px = spriteX sx col ∧ spriteBit b col = true

/-- The columns drawn so far: covered pixels flipped, the others kept, the flag set by a lit one. -/
theorem drawBits_spec (b : Byte) (y : Fin 32) (sx : Byte) (acc : Display × Bool) (k : Nat) (hk : k ≤ 8) :
    (∀ py px, rowCovers b y sx k py px →
      pixel ((List.range k).foldl (drawBit b y sx) acc).1 py px = !pixel acc.1 py px) ∧
    (∀ py px, ¬ rowCovers b y sx k py px →
      pixel ((List.range k).foldl (drawBit b y sx) acc).1 py px = pixel acc.1 py px) ∧
    (((List.range k).foldl (drawBit b y sx) acc).2 = true ↔
      acc.2 = true ∨ ∃ py px, rowCovers b y sx k py px ∧ pixel acc.1 py px = true) := by
  induction k with
  | zero => simp [rowCovers]
  | succ k ih =>
    obtain ⟨ih1, ih2, ih3⟩ := ih (by omega)
    rw [List.range_succ, List.foldl_append, List.foldl_cons, List.foldl_nil]
    generalize (List.range k).foldl (drawBit b y sx) acc = mid at ih1 ih2 ih3
    have hnew : ¬ rowCovers b y sx k y (spriteX sx k) := by
      rintro ⟨-, col, hcol, he, -⟩
      have := spriteX_inj (by omega) (by omega) he
      omega
    by_cases hb : spriteBit b k = true
    · have hsucc : ∀ py px, rowCovers b y sx (k + 1) py px ↔
          rowCovers b y sx k py px ∨ (py = y ∧ px = spriteX sx k) := by
        intro py px
        constructor
        · rintro ⟨hy, col, hcol, he, hbit⟩
          by_cases hck : col = k
          · exact .inr ⟨hy, hck ▸ he⟩
          · exact .inl ⟨hy, col, by omega, he, hbit⟩
        · rintro (⟨hy, col, hcol, he, hbit⟩ | ⟨hy, he⟩)
          · exact ⟨hy, col, by omega, he, hbit⟩
          · exact ⟨hy, k, by omega, he, hb⟩
      simp only [drawBit, hb, if_true]
      refine ⟨fun py px h => ?_, fun py px h => ?_, ?_⟩
      · rw [pixel_flipPixel]
        rcases (hsucc py px).1 h with h | ⟨rfl, rfl⟩
        · rw [if_neg (by rintro ⟨rfl, rfl⟩; exact hnew h), ih1 py px h]
        · rw [if_pos ⟨rfl, rfl⟩, ih2 _ _ hnew]
      · rw [pixel_flipPixel, if_neg (fun e => h ((hsucc py px).2 (.inr e))), ih2 py px]
        exact fun e => h ((hsucc py px).2 (.inl e))
      · rw [Bool.or_eq_true, ih3, ih2 _ _ hnew]
        constructor
        · rintro ((h | ⟨py, px, h, hl⟩) | h)
          · exact .inl h
          · exact .inr ⟨py, px, (hsucc py px).2 (.inl h), hl⟩
          · exact .inr ⟨y, spriteX sx k, (hsucc _ _).2 (.inr ⟨rfl, rfl⟩), h⟩
        · rintro (h | ⟨py, px, h, hl⟩)
          · exact .inl (.inl h)
          · rcases (hsucc py px).1 h with h | ⟨rfl, rfl⟩
            · exact .inl (.inr ⟨py, px, h, hl⟩)
            · exact .inr hl
    · have hsucc : ∀ py px, rowCovers b y sx (k + 1) py px ↔ rowCovers b y sx k py px := by
        intro py px
        constructor
        · rintro ⟨hy, col, hcol, he, hbit⟩
          have hck : col ≠ k := fun e => hb (e ▸ hbit)
          exact ⟨hy, col, by omega, he, hbit⟩
        · rintro ⟨hy, col, hcol, he, hbit⟩
          exact ⟨hy, col, by omega, he, hbit⟩
      rw [Bool.not_eq_true] at hb
      simp only [drawBit, hb, Bool.false_eq_true, if_false, hsucc]
      exact ⟨ih1, ih2, ih3⟩

/-- The sprite whose bytes are `bs`, drawn from row `row` on, lies on the pixel. -/
def spriteLies (sx sy : Byte) (bs : List Byte) (row : Nat) (py : Fin 32) (px : Fin 64) : Prop :=
  ∃ r, ∃ h : r < bs.length, rowCovers bs[r] (spriteY sy (row + r)) sx 8 py px

theorem spriteLies_cons (sx sy b : Byte) (bs : List Byte) (row : Nat) (py : Fin 32) (px : Fin 64) :
    spriteLies sx sy (b :: bs) row py px ↔
      rowCovers b (spriteY sy row) sx 8 py px ∨ spriteLies sx sy bs (row + 1) py px := by
  constructor
  · rintro ⟨r, hr, h⟩
    cases r with
    | zero => exact .inl h
    | succ r =>
      refine .inr ⟨r, by simpa using hr, ?_⟩
      rw [show row + 1 + r = row + (r + 1) by omega]
      exact h
  · rintro (h | ⟨r, hr, h⟩)
    · exact ⟨0, by simp, h⟩
    · refine ⟨r + 1, by simpa using hr, ?_⟩
      rw [show row + (r + 1) = row + 1 + r by omega]
      exact h

/-- The whole loop: covered pixels flipped, the others kept, the flag set by a lit one (46_draw.md R145). -/
theorem drawSprite_spec (sx sy : Byte) (bs : List Byte) (row : Nat) (acc : Display × Bool)
    (h32 : row + bs.length ≤ 32) :
    (∀ py px, spriteLies sx sy bs row py px →
      pixel (drawSprite sx sy bs row acc).1 py px = !pixel acc.1 py px) ∧
    (∀ py px, ¬ spriteLies sx sy bs row py px →
      pixel (drawSprite sx sy bs row acc).1 py px = pixel acc.1 py px) ∧
    ((drawSprite sx sy bs row acc).2 = true ↔
      acc.2 = true ∨ ∃ py px, spriteLies sx sy bs row py px ∧ pixel acc.1 py px = true) := by
  induction bs generalizing row acc with
  | nil => simp [drawSprite, spriteLies]
  | cons b bs ih =>
    rw [List.length_cons] at h32
    obtain ⟨r1, r2, r3⟩ := drawBits_spec b (spriteY sy row) sx acc 8 (le_refl 8)
    obtain ⟨i1, i2, i3⟩ := ih (row + 1) (drawRow b (spriteY sy row) sx acc) (by omega)
    have apart : ∀ py px, rowCovers b (spriteY sy row) sx 8 py px → ¬ spriteLies sx sy bs (row + 1) py px := by
      rintro py px ⟨hy, -⟩ ⟨r, hr, hy', -⟩
      have := spriteY_inj (by omega) (by omega) (hy ▸ hy')
      omega
    simp only [drawSprite, spriteLies_cons]
    refine ⟨?_, ?_, ?_⟩
    · rintro py px (h | h)
      · rw [i2 py px (apart py px h)]
        exact r1 py px h
      · rw [i1 py px h]
        exact congrArg _ (r2 py px fun e => apart py px e h)
    · intro py px h
      rw [i2 py px (fun e => h (.inr e))]
      exact r2 py px fun e => h (.inl e)
    · rw [i3]
      constructor
      · rintro (h | ⟨py, px, h, hl⟩)
        · rcases r3.1 h with h | ⟨py, px, h, hl⟩
          · exact .inl h
          · exact .inr ⟨py, px, .inl h, hl⟩
        · refine .inr ⟨py, px, .inr h, ?_⟩
          have := r2 py px fun e => apart py px e h
          exact this.symm.trans hl
      · rintro (h | ⟨py, px, h | h, hl⟩)
        · exact .inl (r3.2 (.inl h))
        · exact .inl (r3.2 (.inr ⟨py, px, h, hl⟩))
        · refine .inr ⟨py, px, h, ?_⟩
          exact (r2 py px fun e => apart py px e h).trans hl

end Sys2Proof.Machine
end

