-- ==== Sys2Proof/Laws/Exec.lean ====
section
/-! SUPPORT. Everything each meaning with more than one outcome can do. A meaning with one outcome is its own equation. -/

namespace Sys2Proof.Machine

/-- RET: the fault, a pop, or the model's own stop (R91, log 7). -/
theorem execRet_cases (s : State) :
    (s.sp = 0#8 ∧ execRet s = raise .stackUnderflow 0 s) ∨
    (∃ h : s.sp.toNat - 1 < 16, 1 ≤ s.sp.toNat ∧ s.sp.toNat ≤ 16 ∧ execRet s = .next (popAndJump s h)) ∨
    (16 < s.sp.toNat ∧ execRet s = .fault .stackPointerOutOfRange) := by
  unfold execRet
  by_cases h0 : s.sp = 0#8
  · exact .inl ⟨h0, by simp [h0]⟩
  · have h1 : s.sp.toNat ≠ 0 := fun e => h0 (BitVec.eq_of_toNat_eq (by simpa using e))
    rw [if_neg h0]
    by_cases h : s.sp.toNat - 1 < 16
    · exact .inr (.inl ⟨h, by omega, by omega, dif_pos h⟩)
    · exact .inr (.inr ⟨by omega, dif_neg h⟩)

/-- CALL: the fault, a push, or the model's own stop (R93, log 7). -/
theorem execCall_cases (nnn : BitVec 12) (s : State) :
    (s.sp = 16#8 ∧ execCall nnn s = raise .stackOverflow nnn.toNat s) ∨
    (∃ h : s.sp.toNat < 16, execCall nnn s = .next (pushAndJump s h (zextAddr nnn))) ∨
    (16 < s.sp.toNat ∧ execCall nnn s = .fault .stackPointerOutOfRange) := by
  unfold execCall
  by_cases h0 : s.sp = 16#8
  · exact .inl ⟨h0, by simp [h0]⟩
  · have h1 : s.sp.toNat ≠ 16 := fun e => h0 (BitVec.eq_of_toNat_eq (by simpa using e))
    rw [if_neg h0]
    by_cases h : s.sp.toNat < 16
    · exact .inr (.inl ⟨h, dif_pos h⟩)
    · exact .inr (.inr ⟨by omega, dif_neg h⟩)

/-- LD Vx,K: the rewind, or the least pressed key (R150). -/
theorem execLdVxK_cases (x : Reg) (s : State) :
    ((∀ k, s.pressed k = false) ∧ execLdVxK x s = .next { s with pc := s.pc0 }) ∨
    (∃ k : Fin 16, s.pressed k = true ∧ (∀ j, j < k → s.pressed j = false) ∧
      execLdVxK x s = .next (s.setReg x (BitVec.ofNat 8 k.val))) := by
  unfold execLdVxK
  cases h : s.leastPressed with
  | none => exact .inl ⟨State.leastPressed_eq_none.1 h, rfl⟩
  | some k => exact .inr ⟨k, (State.leastPressed_eq_some.1 h).1, (State.leastPressed_eq_some.1 h).2, rfl⟩

/-- LD Vx,[I]: the fault, or the registers loaded (R135). -/
theorem execLdVxMem_cases (x : Reg) (s : State) :
    (4095 < s.i.toNat + x.val ∧ execLdVxMem x s = raise .addressOutOfRange (max s.i.toNat 4096) s) ∨
    (s.i.toNat + x.val ≤ 4095 ∧ execLdVxMem x s = .next { s with v := loadedRegs s x }) := by
  rcases guardRange_cases s.i.toNat (x.val + 1) s (.next { s with v := loadedRegs s x })
    with ⟨_, h, e⟩ | ⟨h, e⟩
  · exact .inl ⟨by omega, e⟩
  · exact .inr ⟨by omega, e⟩

/-- LD [I],Vx: the fault, or the registers stored (R134). -/
theorem execLdMemVx_cases (x : Reg) (s : State) :
    (4095 < s.i.toNat + x.val ∧ execLdMemVx x s = raise .addressOutOfRange (max s.i.toNat 4096) s) ∨
    (s.i.toNat + x.val ≤ 4095 ∧
      execLdMemVx x s = .next { s with mem := Memory.writeBytes s.mem s.i.toNat (blockRegs s x) }) := by
  have hl := length_blockRegs s x
  rcases storeAtI_cases (blockRegs s x) s with ⟨_, h, e⟩ | ⟨h, e⟩
  · exact .inl ⟨by omega, e⟩
  · exact .inr ⟨by omega, e⟩

/-- LD B,Vx: the fault, or the three digits stored (R133). -/
theorem execLdB_cases (x : Reg) (s : State) :
    (4095 < s.i.toNat + 2 ∧ execLdB x s = raise .addressOutOfRange (max s.i.toNat 4096) s) ∨
    (s.i.toNat + 2 ≤ 4095 ∧ execLdB x s =
      .next { s with mem := Memory.writeBytes s.mem s.i.toNat (decimalDigits (s.reg x)) }) := by
  have hl : (decimalDigits (s.reg x)).length = 3 := rfl
  rcases storeAtI_cases (decimalDigits (s.reg x)) s with ⟨_, h, e⟩ | ⟨h, e⟩
  · exact .inl ⟨by omega, e⟩
  · exact .inr ⟨by omega, e⟩

/-- DRW: the fault, or the display and VF written (R145). -/
theorem execDrw_cases (x y : Reg) (n : BitVec 4) (s : State) :
    (0 < n.toNat ∧ 4096 < s.i.toNat + n.toNat ∧
      execDrw x y n s = raise .addressOutOfRange (max s.i.toNat 4096) s) ∨
    ((n.toNat = 0 ∨ s.i.toNat + n.toNat ≤ 4096) ∧ execDrw x y n s =
      .next { s.setReg vf (flagByte (drawn s x y n).2) with disp := (drawn s x y n).1 }) :=
  guardRange_cases _ _ _ _

end Sys2Proof.Machine
end

