-- ==== Sys2Proof/Laws/PerInstr.lean ====
section
/-! SUPPORT. Per-instruction facts about the syntax: the word the encoder gives lies in the instruction's row of
spec/opcode_table.json. -/

namespace Sys2Proof.Laws

/-- A word of format `A` under the family mask. -/
theorem wordA_mask (f : BitVec 4) (a : BitVec 12) : wordA f a &&& 0xF000#16 = wordA f 0#12 := by
  refine (BitVec.and_append (x₁ := f) (x₂ := 0xF#4) (y₁ := a) (y₂ := 0#12)).trans ?_
  rw [show (0xF#4 : BitVec 4) = BitVec.allOnes 4 from rfl, BitVec.and_allOnes, BitVec.and_zero]
  rfl

/-- A word of formats `XB` and `XY` under the family mask. -/
theorem wordXB_mask (f : BitVec 4) (x : Reg) (b : Byte) : wordXB f x b &&& 0xF000#16 = wordA f 0#12 := by
  have h : wordXB f x b = wordA f (regBits x ++ b : BitVec 12) := by
    apply BitVec.eq_of_toNat_eq
    rw [toNat_wordXB, toNat_wordA]
    refine Eq.trans ?_ (congrArg (f.toNat * 4096 + ·) (toNat_append_bits (regBits x) b).symm)
    rw [toNat_regBits]
    omega
  rw [h, wordA_mask]

theorem wordXYN_mask (f : BitVec 4) (x y : Reg) (n : BitVec 4) :
    wordXYN f x y n &&& 0xF000#16 = wordA f 0#12 :=
  wordXB_mask f x (regBits y ++ n : BitVec 8)

/-- An instruction with a row of its own is encoded inside it (R71). -/
def EncodeInRow.Statement (i : Instr) : Prop :=
  i.mnemonic ≠ "NOP" → ∃ r ∈ opcodeTable, r.mnemonic = i.mnemonic ∧ r.holds (encode i) = true

theorem EncodeInRow.cls : EncodeInRow.Statement .cls := fun _ =>
  ⟨⟨"CLS", 0xF00F#16, 0x0000#16⟩, by decide, rfl, decide_eq_true (by decide)⟩
theorem EncodeInRow.ret : EncodeInRow.Statement .ret := fun _ =>
  ⟨⟨"RET", 0xF00F#16, 0x000E#16⟩, by decide, rfl, decide_eq_true (by decide)⟩
theorem EncodeInRow.jp (nnn : BitVec 12) : EncodeInRow.Statement (.jp nnn) := fun _ =>
  ⟨⟨"JP_addr", 0xF000#16, 0x1000#16⟩, by decide, rfl, decide_eq_true (wordA_mask 0x1#4 nnn)⟩
theorem EncodeInRow.call (nnn : BitVec 12) : EncodeInRow.Statement (.call nnn) := fun _ =>
  ⟨⟨"CALL_addr", 0xF000#16, 0x2000#16⟩, by decide, rfl, decide_eq_true (wordA_mask 0x2#4 nnn)⟩
theorem EncodeInRow.seByte (x : Reg) (nn : Byte) : EncodeInRow.Statement (.seByte x nn) := fun _ =>
  ⟨⟨"SE_Vx__byte", 0xF000#16, 0x3000#16⟩, by decide, rfl, decide_eq_true (wordXB_mask 0x3#4 x nn)⟩
theorem EncodeInRow.sneByte (x : Reg) (nn : Byte) : EncodeInRow.Statement (.sneByte x nn) := fun _ =>
  ⟨⟨"SNE_Vx__byte", 0xF000#16, 0x4000#16⟩, by decide, rfl, decide_eq_true (wordXB_mask 0x4#4 x nn)⟩
theorem EncodeInRow.seReg (x y : Reg) : EncodeInRow.Statement (.seReg x y) := fun _ =>
  ⟨⟨"SE_Vx__Vy", 0xF000#16, 0x5000#16⟩, by decide, rfl, decide_eq_true (wordXYN_mask 0x5#4 x y 0x0#4)⟩
theorem EncodeInRow.ldByte (x : Reg) (nn : Byte) : EncodeInRow.Statement (.ldByte x nn) := fun _ =>
  ⟨⟨"LD_Vx__byte", 0xF000#16, 0x6000#16⟩, by decide, rfl, decide_eq_true (wordXB_mask 0x6#4 x nn)⟩
theorem EncodeInRow.addByte (x : Reg) (nn : Byte) : EncodeInRow.Statement (.addByte x nn) := fun _ =>
  ⟨⟨"ADD_Vx__byte", 0xF000#16, 0x7000#16⟩, by decide, rfl, decide_eq_true (wordXB_mask 0x7#4 x nn)⟩
theorem EncodeInRow.ldReg (x y : Reg) : EncodeInRow.Statement (.ldReg x y) := fun _ =>
  ⟨⟨"LD_Vx__Vy", 0xF00F#16, 0x8000#16⟩, by decide, rfl, decide_eq_true (by revert x y; decide)⟩
theorem EncodeInRow.orReg (x y : Reg) : EncodeInRow.Statement (.orReg x y) := fun _ =>
  ⟨⟨"OR_Vx__Vy", 0xF00F#16, 0x8001#16⟩, by decide, rfl, decide_eq_true (by revert x y; decide)⟩
theorem EncodeInRow.andReg (x y : Reg) : EncodeInRow.Statement (.andReg x y) := fun _ =>
  ⟨⟨"AND_Vx__Vy", 0xF00F#16, 0x8002#16⟩, by decide, rfl, decide_eq_true (by revert x y; decide)⟩
theorem EncodeInRow.xorReg (x y : Reg) : EncodeInRow.Statement (.xorReg x y) := fun _ =>
  ⟨⟨"XOR_Vx__Vy", 0xF00F#16, 0x8003#16⟩, by decide, rfl, decide_eq_true (by revert x y; decide)⟩
theorem EncodeInRow.addReg (x y : Reg) : EncodeInRow.Statement (.addReg x y) := fun _ =>
  ⟨⟨"ADD_Vx__Vy", 0xF00F#16, 0x8004#16⟩, by decide, rfl, decide_eq_true (by revert x y; decide)⟩
theorem EncodeInRow.sub (x y : Reg) : EncodeInRow.Statement (.sub x y) := fun _ =>
  ⟨⟨"SUB_Vx__Vy", 0xF00F#16, 0x8005#16⟩, by decide, rfl, decide_eq_true (by revert x y; decide)⟩
theorem EncodeInRow.shr (x : Reg) : EncodeInRow.Statement (.shr x) := fun _ =>
  ⟨⟨"SHR_Vx", 0xF00F#16, 0x8006#16⟩, by decide, rfl, decide_eq_true (by revert x; decide)⟩
theorem EncodeInRow.subn (x y : Reg) : EncodeInRow.Statement (.subn x y) := fun _ =>
  ⟨⟨"SUBN_Vx__Vy", 0xF00F#16, 0x8007#16⟩, by decide, rfl, decide_eq_true (by revert x y; decide)⟩
theorem EncodeInRow.shl (x : Reg) : EncodeInRow.Statement (.shl x) := fun _ =>
  ⟨⟨"SHL_Vx", 0xF00F#16, 0x800E#16⟩, by decide, rfl, decide_eq_true (by revert x; decide)⟩
theorem EncodeInRow.sneReg (x y : Reg) : EncodeInRow.Statement (.sneReg x y) := fun _ =>
  ⟨⟨"SNE_Vx__Vy", 0xF000#16, 0x9000#16⟩, by decide, rfl, decide_eq_true (wordXYN_mask 0x9#4 x y 0x0#4)⟩
theorem EncodeInRow.ldI (nnn : BitVec 12) : EncodeInRow.Statement (.ldI nnn) := fun _ =>
  ⟨⟨"LD_I__addr", 0xF000#16, 0xA000#16⟩, by decide, rfl, decide_eq_true (wordA_mask 0xA#4 nnn)⟩
theorem EncodeInRow.jpV0 (nnn : BitVec 12) : EncodeInRow.Statement (.jpV0 nnn) := fun _ =>
  ⟨⟨"JP_V0__addr", 0xF000#16, 0xB000#16⟩, by decide, rfl, decide_eq_true (wordA_mask 0xB#4 nnn)⟩
theorem EncodeInRow.rnd (x : Reg) (nn : Byte) : EncodeInRow.Statement (.rnd x nn) := fun _ =>
  ⟨⟨"RND_Vx__byte", 0xF000#16, 0xC000#16⟩, by decide, rfl, decide_eq_true (wordXB_mask 0xC#4 x nn)⟩
theorem EncodeInRow.drw (x y : Reg) (n : BitVec 4) : EncodeInRow.Statement (.drw x y n) := fun _ =>
  ⟨⟨"DRW_Vx__Vy__nibble", 0xF000#16, 0xD000#16⟩, by decide, rfl, decide_eq_true (wordXYN_mask 0xD#4 x y n)⟩
theorem EncodeInRow.sknp (x : Reg) : EncodeInRow.Statement (.sknp x) := fun _ =>
  ⟨⟨"SKNP_Vx", 0xF00F#16, 0xE001#16⟩, by decide, rfl, decide_eq_true (by revert x; decide)⟩
theorem EncodeInRow.skp (x : Reg) : EncodeInRow.Statement (.skp x) := fun _ =>
  ⟨⟨"SKP_Vx", 0xF00F#16, 0xE00E#16⟩, by decide, rfl, decide_eq_true (by revert x; decide)⟩
theorem EncodeInRow.ldVxDt (x : Reg) : EncodeInRow.Statement (.ldVxDt x) := fun _ =>
  ⟨⟨"LD_Vx__DT", 0xF0FF#16, 0xF007#16⟩, by decide, rfl, decide_eq_true (by revert x; decide)⟩
theorem EncodeInRow.ldVxK (x : Reg) : EncodeInRow.Statement (.ldVxK x) := fun _ =>
  ⟨⟨"LD_Vx__K", 0xF0FF#16, 0xF00A#16⟩, by decide, rfl, decide_eq_true (by revert x; decide)⟩
theorem EncodeInRow.ldDtVx (x : Reg) : EncodeInRow.Statement (.ldDtVx x) := fun _ =>
  ⟨⟨"LD_DT__Vx", 0xF0FF#16, 0xF015#16⟩, by decide, rfl, decide_eq_true (by revert x; decide)⟩
theorem EncodeInRow.ldStVx (x : Reg) : EncodeInRow.Statement (.ldStVx x) := fun _ =>
  ⟨⟨"LD_ST__Vx", 0xF0FF#16, 0xF018#16⟩, by decide, rfl, decide_eq_true (by revert x; decide)⟩
theorem EncodeInRow.addI (x : Reg) : EncodeInRow.Statement (.addI x) := fun _ =>
  ⟨⟨"ADD_I__Vx", 0xF0FF#16, 0xF01E#16⟩, by decide, rfl, decide_eq_true (by revert x; decide)⟩
theorem EncodeInRow.ldF (x : Reg) : EncodeInRow.Statement (.ldF x) := fun _ =>
  ⟨⟨"LD_F__Vx", 0xF0FF#16, 0xF029#16⟩, by decide, rfl, decide_eq_true (by revert x; decide)⟩
theorem EncodeInRow.ldB (x : Reg) : EncodeInRow.Statement (.ldB x) := fun _ =>
  ⟨⟨"LD_B__Vx", 0xF0FF#16, 0xF033#16⟩, by decide, rfl, decide_eq_true (by revert x; decide)⟩
theorem EncodeInRow.ldMemVx (x : Reg) : EncodeInRow.Statement (.ldMemVx x) := fun _ =>
  ⟨⟨"LD__I___Vx", 0xF0FF#16, 0xF055#16⟩, by decide, rfl, decide_eq_true (by revert x; decide)⟩
theorem EncodeInRow.ldVxMem (x : Reg) : EncodeInRow.Statement (.ldVxMem x) := fun _ =>
  ⟨⟨"LD_Vx___I", 0xF0FF#16, 0xF065#16⟩, by decide, rfl, decide_eq_true (by revert x; decide)⟩
theorem EncodeInRow.nop (word : Word) : EncodeInRow.Statement (.nop word) := fun h => absurd rfl h

end Sys2Proof.Laws
end

