-- ==== Sys2Proof/Tests/Slice0.lean ====
section
/-! SUPPORT. Tests. Expected results are from spec/: the words of 30_encoding.md R72 and the vectors of
95_test_vectors.md, whose ids stand in the comments. Then a witness for each statement that has hypotheses. -/

namespace Sys2Proof.Tests

open Sys2Proof.Machine

/-! ### Decoding: one word per constructor, written out from its encoding -/

theorem test_decode_cls : decodeWord 0x00E0#16 = .cls := by decide
theorem test_decode_ret : decodeWord 0x00EE#16 = .ret := by decide
theorem test_decode_jp : decodeWord 0x1234#16 = .jp 0x234#12 := by decide
theorem test_decode_call : decodeWord 0x2ABC#16 = .call 0xABC#12 := by decide
theorem test_decode_seByte : decodeWord 0x332A#16 = .seByte 3 0x2A#8 := by decide
theorem test_decode_sneByte : decodeWord 0x432A#16 = .sneByte 3 0x2A#8 := by decide
theorem test_decode_seReg : decodeWord 0x5121#16 = .seReg 1 2 := by decide
theorem test_decode_ldByte : decodeWord 0x600A#16 = .ldByte 0 0x0A#8 := by decide
theorem test_decode_addByte : decodeWord 0x7220#16 = .addByte 2 0x20#8 := by decide
theorem test_decode_ldReg : decodeWord 0x8150#16 = .ldReg 1 5 := by decide
theorem test_decode_orReg : decodeWord 0x8121#16 = .orReg 1 2 := by decide
theorem test_decode_andReg : decodeWord 0x8122#16 = .andReg 1 2 := by decide
theorem test_decode_xorReg : decodeWord 0x8123#16 = .xorReg 1 2 := by decide
theorem test_decode_addReg : decodeWord 0x8F14#16 = .addReg 15 1 := by decide
theorem test_decode_sub : decodeWord 0x8125#16 = .sub 1 2 := by decide
theorem test_decode_shr : decodeWord 0x8126#16 = .shr 1 := by decide
theorem test_decode_subn : decodeWord 0x8127#16 = .subn 1 2 := by decide
theorem test_decode_shl : decodeWord 0x812E#16 = .shl 1 := by decide
theorem test_decode_sneReg : decodeWord 0x9120#16 = .sneReg 1 2 := by decide
theorem test_decode_ldI : decodeWord 0xA300#16 = .ldI 0x300#12 := by decide
theorem test_decode_jpV0 : decodeWord 0xB2FF#16 = .jpV0 0x2FF#12 := by decide
theorem test_decode_rnd : decodeWord 0xC30F#16 = .rnd 3 0x0F#8 := by decide
theorem test_decode_drw : decodeWord 0xD125#16 = .drw 1 2 0x5#4 := by decide
theorem test_decode_sknp : decodeWord 0xE4A1#16 = .sknp 4 := by decide
theorem test_decode_skp : decodeWord 0xE40E#16 = .skp 4 := by decide
theorem test_decode_ldVxDt : decodeWord 0xF307#16 = .ldVxDt 3 := by decide
theorem test_decode_ldVxK : decodeWord 0xF20A#16 = .ldVxK 2 := by decide
theorem test_decode_ldDtVx : decodeWord 0xF015#16 = .ldDtVx 0 := by decide
theorem test_decode_ldStVx : decodeWord 0xF018#16 = .ldStVx 0 := by decide
theorem test_decode_addI : decodeWord 0xF11E#16 = .addI 1 := by decide
theorem test_decode_ldF : decodeWord 0xF029#16 = .ldF 0 := by decide
theorem test_decode_ldB : decodeWord 0xF333#16 = .ldB 3 := by decide
theorem test_decode_ldMemVx : decodeWord 0xF255#16 = .ldMemVx 2 := by decide
theorem test_decode_ldVxMem : decodeWord 0xF265#16 = .ldVxMem 2 := by decide
theorem test_decode_nop :
    decodeWord 0x8008#16 = .nop 0x8008#16 ∧ decodeWord 0x0001#16 = .nop 0x0001#16 ∧
    decodeWord 0xE000#16 = .nop 0xE000#16 ∧ decodeWord 0xF0FF#16 = .nop 0xF0FF#16 := by decide
/-- R65: bits 11..4 of family 0 are ignored. -/
theorem test_decode_family0_ignored :
    decodeWord 0x0000#16 = .cls ∧ decodeWord 0x0120#16 = .cls ∧ decodeWord 0x0FFE#16 = .ret := by decide
theorem test_decode_truncated : decode [0x12#8] = .error (.truncated 1) := by rfl
theorem test_decode_bytes : decode [0x12#8, 0x34#8, 0x56#8] = .ok (.jp 0x234#12, [0x56#8]) := by rfl
theorem test_decodeTableWord : decodeTableWord 16 0x8124 = some (.addReg 1 2) := by decide

/-! ### WellFormed: the ill-formed term of its one check -/

theorem test_wellFormed_refuses_mapped_nop : (Instr.nop 0x00E0#16).wellFormed = false := by decide
theorem test_wellFormed_accepts_unmapped_nop : (Instr.nop 0x8008#16).wellFormed = true := by decide

/-! ### One step from a small state -/

/-- The reset state. -/
abbrev s0 : State := State.reset

/-- The state after one step with the word at `PC`; the state itself where the step stops. -/
def after (s : State) (w : Word) : State :=
  match step (placeWord s w) with
  | .next t => t
  | _ => s

/-- A byte of memory after one step. -/
def byteAfter (s : State) (w : Word) (a : Nat) : Byte := Memory.read (after s w).mem a

/-- The latch after one step. -/
def faultAfter (s : State) (w : Word) : Option FaultRecord := (after s w).fault

/-- C1, over one lit pixel -/
theorem test_cls : pixel (after { s0 with disp := flipPixel s0.disp 31 63 } 0x00E0#16).disp 31 63 = false := by decide
/-- C2 -/
theorem test_ret_pops :
    (after { s0 with pc := 0x20C#16, sp := 1#8, stack := s0.stack.set 0 0x206#16 } 0x00EE#16).pc = 0x206#16 := by
  decide
/-- C3 -/
theorem test_ret_underflow : faultAfter s0 0x00EE#16 = some ⟨.stackUnderflow, 0x200#16, 0⟩ := by decide
/-- C5 -/
theorem test_jp : (after s0 0x1234#16).pc = 0x234#16 := by decide
/-- C9 -/
theorem test_call_sixteenth :
    (after { s0 with sp := 15#8 } 0x2ABC#16).stack[15] = 0x202#16 ∧
    (after { s0 with sp := 15#8 } 0x2ABC#16).sp = 16#8 := by decide
/-- C10 -/
theorem test_call_overflow :
    faultAfter { s0 with sp := 16#8 } 0x2ABC#16 = some ⟨.stackOverflow, 0x200#16, 0xABC⟩ := by decide
/-- C12 -/
theorem test_jpV0_unmasked : (after (s0.setReg 0 0xFF#8) 0xBFFF#16).pc = 0x10FE#16 := by decide
/-- C13: always V0, an odd target -/
theorem test_jpV0_reads_v0 : (after ((s0.setReg 0 0x02#8).setReg 2 0x09#8) 0xB2FF#16).pc = 0x301#16 := by decide
/-- T1 -/
theorem test_nop : (after { s0 with dt := 2#8, st := 1#8 } 0x8008#16)
    = { placeWord s0 0x8008#16 with pc := 0x202#16, dt := 1#8, st := 0#8 } := by decide
/-- T8 -/
theorem test_fetch_at_top :
    (after { s0 with pc := 0xFFF#16 } 0x0000#16).fault = some ⟨.addressOutOfRange, 0xFFF#16, 0x1000⟩ := by decide
/-- T10: an odd PC -/
theorem test_fetch_odd : (after { s0 with pc := 0x201#16 } 0x61AB#16).reg 1 = 0xAB#8 := by decide
/-- K1, K2 -/
theorem test_seByte : (after (s0.setReg 3 0x2A#8) 0x332A#16).pc = 0x204#16 ∧
    (after (s0.setReg 3 0x2B#8) 0x332A#16).pc = 0x202#16 := by decide
/-- K3, and R101's own example -/
theorem test_sneByte : (after (s0.setReg 3 0x2A#8) 0x432A#16).pc = 0x202#16 ∧
    (after s0 0x432A#16).pc = 0x204#16 := by decide
/-- K6, K7 -/
theorem test_seReg : (after ((s0.setReg 1 7#8).setReg 2 7#8) 0x5121#16).pc = 0x204#16 ∧
    (after ((s0.setReg 1 7#8).setReg 2 8#8) 0x5120#16).pc = 0x202#16 := by decide
/-- K8, K9 -/
theorem test_sneReg : (after ((s0.setReg 1 7#8).setReg 2 8#8) 0x9120#16).pc = 0x204#16 ∧
    (after (s0.setReg 3 9#8) 0x9330#16).pc = 0x202#16 := by decide
/-- K10, K11 -/
theorem test_skp : (after (hostKeyWrite 10 true (s0.setReg 4 0x0A#8)) 0xE49E#16).pc = 0x204#16 ∧
    (after (s0.setReg 4 0x0A#8) 0xE49E#16).pc = 0x202#16 := by decide
/-- K15 -/
theorem test_skp_index :
    faultAfter (s0.setReg 4 0x10#8) 0xE49E#16 = some ⟨.keyIndexOutOfRange, 0x200#16, 0x10⟩ := by decide
/-- K13, K14 -/
theorem test_sknp : (after (s0.setReg 4 0x0A#8) 0xE4A1#16).pc = 0x204#16 ∧
    (after (hostKeyWrite 10 true (s0.setReg 4 0x0A#8)) 0xE4A1#16).pc = 0x202#16 := by decide
/-- K16 -/
theorem test_sknp_index :
    faultAfter (s0.setReg 4 0xFF#8) 0xE4A1#16 = some ⟨.keyIndexOutOfRange, 0x200#16, 0xFF⟩ := by decide
/-- A2 -/
theorem test_ldByte : (after s0 0x6FFF#16).reg 15 = 0xFF#8 := by decide
/-- A3 -/
theorem test_addByte : (after ((s0.setReg 2 0xF0#8).setReg 15 7#8) 0x7220#16).reg 2 = 0x10#8 ∧
    (after ((s0.setReg 2 0xF0#8).setReg 15 7#8) 0x7220#16).reg 15 = 7#8 := by decide
/-- A6 -/
theorem test_ldReg : (after (s0.setReg 5 0x77#8) 0x8150#16).reg 1 = 0x77#8 := by decide
/-- A7 -/
theorem test_orReg : (after (((s0.setReg 1 0x0F#8).setReg 2 0xF0#8).setReg 15 9#8) 0x8121#16).reg 1 = 0xFF#8 ∧
    (after (((s0.setReg 1 0x0F#8).setReg 2 0xF0#8).setReg 15 9#8) 0x8121#16).reg 15 = 9#8 := by decide
/-- A8 -/
theorem test_andReg : (after ((s0.setReg 1 0x3C#8).setReg 2 0x0F#8) 0x8122#16).reg 1 = 0x0C#8 := by decide
/-- A9, A10 -/
theorem test_xorReg : (after ((s0.setReg 1 0xFF#8).setReg 2 0x0F#8) 0x8123#16).reg 1 = 0xF0#8 ∧
    (after (s0.setReg 1 0x5A#8) 0x8113#16).reg 1 = 0x00#8 := by decide
/-- A11 -/
theorem test_addReg_carry : (after ((s0.setReg 1 0xC8#8).setReg 2 0x64#8) 0x8124#16).reg 1 = 0x2C#8 ∧
    (after ((s0.setReg 1 0xC8#8).setReg 2 0x64#8) 0x8124#16).reg 15 = 1#8 := by decide
/-- A17, A18: X = 15 keeps the flag; Y = 15 adds the old VF -/
theorem test_addReg_vf : (after ((s0.setReg 15 2#8).setReg 1 3#8) 0x8F14#16).reg 15 = 0#8 ∧
    (after ((s0.setReg 1 0xFF#8).setReg 15 1#8) 0x81F4#16).reg 1 = 0#8 := by decide
/-- A21 -/
theorem test_sub_borrow : (after ((s0.setReg 1 3#8).setReg 2 0x0A#8) 0x8125#16).reg 1 = 0xF9#8 ∧
    (after ((s0.setReg 1 3#8).setReg 2 0x0A#8) 0x8125#16).reg 15 = 0#8 := by decide
/-- A22: equal operands -/
theorem test_sub_equal : (after ((s0.setReg 1 5#8).setReg 2 5#8) 0x8125#16).reg 15 = 0#8 := by decide
/-- A27 -/
theorem test_shr : (after ((s0.setReg 1 4#8).setReg 2 0xFF#8) 0x8126#16).reg 1 = 2#8 ∧
    (after ((s0.setReg 1 4#8).setReg 2 0xFF#8) 0x8126#16).reg 15 = 0#8 := by decide
/-- A31, A32 -/
theorem test_subn : (after ((s0.setReg 1 3#8).setReg 2 0x0A#8) 0x8127#16).reg 15 = 1#8 ∧
    (after ((s0.setReg 1 0x0A#8).setReg 2 3#8) 0x8127#16).reg 1 = 0xF9#8 := by decide
/-- A35, A36 -/
theorem test_shl : (after (s0.setReg 1 0x81#8) 0x810E#16).reg 15 = 1#8 ∧
    (after ((s0.setReg 1 0x40#8).setReg 2 0xFF#8) 0x812E#16).reg 1 = 0x80#8 := by decide
/-- M2 -/
theorem test_ldI : (after s0 0xAFFF#16).i = 0xFFF#16 := by decide
/-- M3, M4 -/
theorem test_addI : (after { s0.setReg 1 2#8 with i := 0xFFF#16 } 0xF11E#16).i = 0x1001#16 ∧
    (after { s0.setReg 1 2#8 with i := 0xFFFF#16 } 0xF11E#16).i = 0x0001#16 := by decide
/-- M6, M10 -/
theorem test_ldF : (after (s0.setReg 0 0x0A#8) 0xF029#16).i = 0x82#16 ∧
    (after (s0.setReg 0 0xFF#8) 0xF029#16).i = 0x54B#16 := by decide
/-- M11 -/
theorem test_ldB : byteAfter { s0.setReg 3 0x9D#8 with i := 0x300#16 } 0xF333#16 0x300 = 1#8 ∧
    byteAfter { s0.setReg 3 0x9D#8 with i := 0x300#16 } 0xF333#16 0x301 = 5#8 ∧
    byteAfter { s0.setReg 3 0x9D#8 with i := 0x300#16 } 0xF333#16 0x302 = 7#8 := by decide
/-- M17 -/
theorem test_ldB_range : faultAfter { s0.setReg 3 0x7B#8 with i := 0x1001#16 } 0xF333#16
    = some ⟨.addressOutOfRange, 0x200#16, 0x1001⟩ := by decide
/-- M21, its last byte -/
theorem test_ldMemVx : byteAfter { (s0.setReg 0 1#8).setReg 15 0xEE#8 with i := 0xFF0#16 } 0xFF55#16 0xFFF = 0xEE#8 := by
  decide
/-- M20 -/
theorem test_ldMemVx_range : faultAfter { s0.setReg 0 0xAB#8 with i := 0xFFF#16 } 0xF155#16
    = some ⟨.addressOutOfRange, 0x200#16, 0x1000⟩ ∧
    byteAfter { s0.setReg 0 0xAB#8 with i := 0xFFF#16 } 0xF155#16 0xFFF = 0#8 := by decide
/-- M26, its first and last register -/
theorem test_ldVxMem_font : (after { s0 with i := 0x90#16 } 0xFF65#16).reg 0 = 0xF0#8 ∧
    (after { s0 with i := 0x90#16 } 0xFF65#16).reg 15 = 0x80#8 := by decide
/-- M25 -/
theorem test_ldVxMem_range : faultAfter { s0 with i := 0xFFF#16 } 0xF165#16
    = some ⟨.addressOutOfRange, 0x200#16, 0x1000⟩ := by decide
/-- R2 of 95_test_vectors.md: mask 00, whatever is drawn -/
theorem test_rnd_mask_zero : ∃ t, execRnd 3 0x00#8 (s0.setReg 3 0x55#8) = .next t ∧ t.reg 3 = 0x00#8 := by
  refine ⟨_, rfl, ?_⟩
  refine (State.reg_setReg_same _ _ _).trans ?_
  simp
/-- The cycle of RND advances `PC` like any other. -/
theorem test_rnd_pc : (after s0 0xC30F#16).pc = 0x202#16 := by decide
/-- D1 -/
theorem test_drw_wraps :
    (after { (s0.setReg 1 0x3F#8).setReg 2 0x1F#8 with i := 0x300#16, mem := [(0x300, 0xC0#8)] } 0xD121#16).disp
      = flipPixel (flipPixel s0.disp 31 63) 31 0 := by decide
/-- D8: X = 15 reads the old VF -/
theorem test_drw_reads_vf :
    (after { (s0.setReg 15 5#8).setReg 1 2#8 with i := 0x300#16, mem := [(0x300, 0x80#8)] } 0xDF11#16).disp
      = flipPixel s0.disp 2 5 ∧
    (after { (s0.setReg 15 5#8).setReg 1 2#8 with i := 0x300#16, mem := [(0x300, 0x80#8)] } 0xDF11#16).reg 15 = 0#8 := by
  decide
/-- I1 -/
theorem test_ldVxK_waits : (after { s0 with pc := 0x206#16, dt := 1#8 } 0xF20A#16)
    = { placeWord { s0 with pc := 0x206#16 } 0xF20A#16 with dt := 0#8 } := by decide
/-- I3 -/
theorem test_ldVxK_lowest : (after (hostKeyWrite 9 true (hostKeyWrite 3 true s0)) 0xF20A#16).reg 2 = 3#8 := by decide
/-- X1 -/
theorem test_ldVxDt : (after { s0 with dt := 5#8 } 0xF307#16).reg 3 = 5#8 ∧
    (after { s0 with dt := 5#8 } 0xF307#16).dt = 4#8 := by decide
/-- X4, X5 -/
theorem test_ldDtVx : (after (s0.setReg 0 3#8) 0xF015#16).dt = 2#8 ∧
    (after { s0 with dt := 9#8 } 0xF015#16).dt = 0#8 := by decide
/-- X7, X8 -/
theorem test_ldStVx : (after (s0.setReg 0 1#8) 0xF018#16).st = 0#8 ∧
    (after { s0.setReg 0 0xC8#8 with st := 3#8 } 0xF018#16).st = 199#8 := by decide
/-- H4, small -/
theorem test_load_keeps_the_rest : Memory.read (afterLoad [0x12#8] (afterLoad [0xAA#8, 0xAA#8] s0)).mem 0x201 = 0xAA#8 := by
  decide
/-- H2 -/
theorem test_load_too_large : hostLoad (List.replicate 3585 0xAA#8) s0 = .romTooLarge := by
  unfold hostLoad
  rw [List.length_replicate]
  decide
/-- H7 -/
theorem test_halted : (after s0 0x00EE#16).fault ≠ none ∧
    (match step (after s0 0x00EE#16) with | .next t => decide (t = after s0 0x00EE#16) | _ => false) = true := by decide
/-- The host's question: the word runs as the first instruction after reset (P1's first cycle). -/
theorem test_withFetchWord :
    (match step (s0.withFetchWord 16 0x600A) with | .next t => decide (t.reg 0 = 0x0A#8 ∧ t.pc = 0x202#16) | _ => false)
      = true := by decide

/-! ### Witnesses: a concrete case that meets the hypotheses of each statement that has some -/

/-- A step of the core that answers a next state, said so that `decide` can run it. -/
def stepsTo (s t : State) : Bool :=
  match step s with
  | .next u => decide (u = t)
  | _ => false

theorem stepsTo_next {s t : State} (h : stepsTo s t = true) : step s = .next t := by
  unfold stepsTo at h
  split at h
  · rename_i u hu
    rw [hu, of_decide_eq_true h]
  · cases h

theorem witness_DecodeEncodeRoundTrip : (Instr.nop 0x8008#16).wellFormed = true ∧ Instr.cls.wellFormed = true := by
  decide
theorem witness_DecoderFollowsOpcodeTable :
    (∃ r ∈ opcodeTable, r.holds 0x8124#16 = true) ∧ ∀ r ∈ opcodeTable, r.holds 0x8008#16 = false := by decide
theorem witness_StepRunsDecodedInstruction :
    (placeWord { s0 with pc := 0xFFE#16 } 0x6105#16).fault = none ∧
    (placeWord { s0 with pc := 0xFFE#16 } 0x6105#16).pc.toNat = 4094 ∧
    decode [Memory.read (placeWord { s0 with pc := 0xFFE#16 } 0x6105#16).mem 0xFFE,
      Memory.read (placeWord { s0 with pc := 0xFFE#16 } 0x6105#16).mem 0xFFF] = .ok (.ldByte 1 5#8, []) := by
  refine ⟨by decide, by decide, by rfl⟩
theorem witness_FetchIsBigEndian : ({ s0 with pc := 0xFFE#16 } : State).pc.toNat ≤ 4094 := by decide
theorem witness_FetchAboveMemoryFaults :
    (s0.fault = none ∧ ({ s0 with pc := 0xFFF#16 } : State).pc.toNat = 4095) ∧
    4096 ≤ ({ s0 with pc := 0x1000#16 } : State).pc.toNat := by decide
theorem witness_LatchedFaultHaltsCore :
    (after s0 0x00EE#16).fault = some ⟨.stackUnderflow, 0x200#16, 0⟩ ∧ (List.replicate 3584 0x12#8).length ≤ 3584 := by
  rw [List.length_replicate]
  decide
theorem witness_FaultingCycleOnlyLatches :
    (placeWord s0 0x00EE#16).fault = none ∧
    step (placeWord s0 0x00EE#16) = .next
      { placeWord s0 0x00EE#16 with fault := some ⟨.stackUnderflow, 0x200#16, 0⟩ } ∧
    ({ placeWord s0 0x00EE#16 with fault := some ⟨.stackUnderflow, 0x200#16, 0⟩ } : State).fault ≠ none :=
  ⟨rfl, stepsTo_next (by decide), by decide⟩
theorem witness_TimersCountCompletedCycles :
    step (placeWord { s0 with st := 1#8 } 0xF015#16) = .next
      { placeWord { s0 with st := 1#8 } 0xF015#16 with pc := 0x202#16, st := 0#8 } ∧ Instr.cls ≠ .ldStVx 0 :=
  ⟨stepsTo_next (by decide), by decide⟩
theorem witness_UnmappedWordIsNop :
    (placeWord s0 0x8008#16).fault = none ∧ (placeWord s0 0x8008#16).pc.toNat ≤ 4094 ∧
    unmapped (fetchedWord (placeWord s0 0x8008#16)) = true := by decide
theorem witness_RetPopsReturnAddress :
    (1 ≤ ({ s0 with sp := 1#8 } : State).sp.toNat ∧ ({ s0 with sp := 16#8 } : State).sp.toNat ≤ 16) ∧
    s0.sp.toNat = 0 := by decide
theorem witness_CallPushesReturnAddress :
    ({ s0 with sp := 15#8 } : State).sp.toNat ≤ 15 ∧ ({ s0 with sp := 16#8 } : State).sp.toNat = 16 := by decide
theorem witness_CallThenRetReturns : ({ s0 with sp := 15#8 } : State).sp.toNat ≤ 15 := by decide
theorem witness_KeySkips :
    ((s0.setReg 4 15#8).reg 4).toNat = (15 : Fin 16).val ∧ 15 < ((s0.setReg 4 16#8).reg 4).toNat := by decide
theorem witness_flag_statements : (14 : Reg) ≠ vf ∧ ¬ (15 : Reg) ≠ vf := by decide
theorem witness_LdBStoresDigits :
    ({ s0 with i := 4093#16 } : State).i.toNat + 2 ≤ 4095 ∧ 4095 < ({ s0 with i := 4094#16 } : State).i.toNat + 2 := by
  decide
theorem witness_BlockStoreWritesRegisters :
    ({ s0 with i := 4080#16 } : State).i.toNat + (15 : Reg).val ≤ 4095 ∧
    4095 < ({ s0 with i := 4081#16 } : State).i.toNat + (15 : Reg).val := by decide
theorem witness_BlockLoadReadsMemory :
    ({ s0 with i := 4095#16 } : State).i.toNat + (0 : Reg).val ≤ 4095 ∧
    4095 < ({ s0 with i := 4095#16 } : State).i.toNat + (1 : Reg).val := by decide
theorem witness_BlockStoreThenLoadRestores :
    ({ s0 with i := 4093#16 } : State).i.toNat + (2 : Reg).val ≤ 4095 := by decide
theorem witness_StoreIsSeenByNextFetch :
    1 ≤ (1 : Reg).val ∧ ({ s0 with i := 0xFFE#16, pc := 0xFFE#16 } : State).i
      = ({ s0 with i := 0xFFE#16, pc := 0xFFE#16 } : State).pc ∧
    ({ s0 with i := 0xFFE#16, pc := 0xFFE#16 } : State).i.toNat + (1 : Reg).val ≤ 4095 := by decide
/-- Words that meet the hypothesis of `Selects`, one for each mask, ignored bits not zero. -/
theorem witness_Selects :
    (0x0FFE#16 &&& 0xF00F#16 = 0x000E#16 ∧ 0x812E#16 &&& 0xF00F#16 = 0x800E#16 ∧ 0xEF9E#16 &&& 0xF00F#16 = 0xE00E#16) ∧
    (0x5123#16 &&& 0xF000#16 = 0x5000#16 ∧ 0xDFFF#16 &&& 0xF000#16 = 0xD000#16) ∧
    0xFF65#16 &&& 0xF0FF#16 = 0xF065#16 := by decide
theorem witness_DrwXorsSprite :
    (({ s0 with i := 4095#16 } : State).i.toNat + (1#4).toNat ≤ 4096 ∧
      4096 < ({ s0 with i := 4095#16 } : State).i.toNat + (2#4).toNat ∧ (0#4).toNat = 0) := by decide
/-- A covered pixel, lit and unlit, and an uncovered one. -/
theorem witness_spriteCovers :
    spriteCovers { s0 with i := 0x50#16 } 0 1 1#4 0 3 ∧ ¬ spriteCovers { s0 with i := 0x50#16 } 0 1 1#4 0 4 := by
  refine ⟨⟨0, 3, by decide, by decide, by decide, by decide, by decide⟩, ?_⟩
  rintro ⟨row, col, hr, hc, -, hx, hb⟩
  have h4 : col = 4 := by
    have : (4 : Fin 64).val = (0 + col) % 64 := hx
    have : (4 : Fin 64).val = 4 := rfl
    omega
  have h0 : row = 0 := by
    have : row < 1 := hr
    omega
  subst h4 h0
  revert hb
  decide
/-- A covered pixel that is lit: the flag's first case. -/
theorem witness_DrwXorsSprite_collision :
    spriteCovers { s0 with i := 0x50#16, disp := flipPixel s0.disp 0 3 } 0 1 1#4 0 3 ∧
    pixel (flipPixel s0.disp 0 3) 0 3 = true ∧
    (after { s0 with i := 0x50#16, disp := flipPixel s0.disp 0 3 } 0xD011#16).reg vf = 0x01#8 :=
  ⟨⟨0, 3, by decide, by decide, by decide, by decide, by decide⟩, by decide, by decide⟩
theorem witness_DrwIsSelfInverse :
    (0 : Reg) ≠ vf ∧ (1 : Reg) ≠ vf ∧ ({ s0 with i := 0x50#16 } : State).i.toNat + (5#4).toNat ≤ 4096 := by decide
theorem witness_LdKPollsKeypad :
    (∀ k, s0.pressed k = false) ∧
    ((hostKeyWrite 15 true s0).pressed 15 = true ∧ ∀ j, j < 15 → (hostKeyWrite 15 true s0).pressed j = false) ∧
    decodeWord (fetchedWord (placeWord s0 0xF20A#16)) = .ldVxK 2 := by decide
theorem witness_TimerMoves :
    (placeWord s0 0xF015#16).fault = none ∧ (placeWord s0 0xF015#16).pc.toNat ≤ 4094 ∧
    decodeWord (fetchedWord (placeWord s0 0xF015#16)) = .ldDtVx 0 ∧
    decodeWord (fetchedWord (placeWord s0 0xF018#16)) = .ldStVx 0 ∧
    decodeWord (fetchedWord (placeWord s0 0xF307#16)) = .ldVxDt 3 := by decide
theorem witness_RegisterAccessIsTheTable :
    exec (.ldByte 3 7#8) s0 = .next (s0.setReg 3 7#8) ∧ writesReg (.ldByte 3 7#8) 4 = false ∧
    ∀ k : Reg, readsReg (.shr 3) k = true → (s0.setReg 4 9#8).v[k] = s0.v[k] :=
  ⟨rfl, rfl, by decide⟩
theorem witness_WritersOfStateElements :
    exec .cls s0 = .next { s0 with disp := blankDisplay } ∧ storesMemory .cls = false ∧ setsIndex .cls = false ∧
    writesDisplay (.shr 0) = false ∧ mayFault .cls = false ∧ keepsPc .cls = true ∧ s0.fault = none :=
  ⟨rfl, rfl, rfl, rfl, rfl, rfl, rfl⟩
theorem witness_MostInstructionsNeverFault : mayFault (.drw 0 1 0#4) = false ∧ mayFault (.rnd 0 0#8) = false := by decide
theorem witness_FaultCausesAreTheTable :
    s0.fault = none ∧
    exec .ret s0.advance = .next { s0 with fault := some ⟨.stackUnderflow, 0x200#16, 0⟩ } ∧
    ({ s0 with fault := some ⟨.stackUnderflow, 0x200#16, 0⟩ } : State).fault
      = some ⟨.stackUnderflow, 0x200#16, 0⟩ :=
  ⟨rfl, rfl, rfl⟩
theorem witness_OnlyRndReadsRandomByte : ∀ x nn, Instr.cls ≠ .rnd x nn := by
  intro x nn h
  cases h
theorem witness_StepKeepsMachineInvariant :
    s0.Inv ∧ step s0 = .next { s0 with pc := 0x202#16 } :=
  ⟨by decide, stepsTo_next (by decide)⟩
theorem witness_HostKeepsMachineInvariant : s0.Inv := by decide
theorem witness_ReachableCoreAlwaysSteps : Reachable (hostKeyWrite 7 true s0) := .keyWrite 7 true .reset
/-- The boundary of the invariant: a full stack and the highest `PC`. -/
theorem witness_InvariantStatesStepOn : ({ s0 with sp := 16#8, pc := 0x10FE#16 } : State).Inv := by decide
theorem witness_IllegalStackPointerStops : 16 < ({ s0 with sp := 17#8 } : State).sp.toNat := by decide
theorem witness_LoadCopiesRom :
    (List.replicate 3584 0xAA#8).length ≤ 3584 ∧ 3584 < (List.replicate 3585 0xAA#8).length := by
  rw [List.length_replicate, List.length_replicate]
  decide
theorem witness_KeypadIsWrittenByHostOnly :
    step (hostKeyWrite 3 true s0) = .next { hostKeyWrite 3 true s0 with pc := 0x202#16 } :=
  stepsTo_next (by decide)

end Sys2Proof.Tests
end

section
/-! PROOFS. The machine invariant: every instruction run on an advanced running core, every step and every host
operation answers a state that meets it (10_state.md R24, R25; 00_scope.md R7, R8). -/

namespace Sys2Proof.Machine

/-! ### What meets the invariant -/

/-- A running state fits its latch, so only memory, stack and `PC` are left to check. -/
theorem State.inv_of_running {s : State} (hmem : Memory.wf s.mem) (hsp : s.sp.toNat ≤ 16)
    (hpc : s.pc.toNat ≤ 0x10FE) (hstack : ∀ k : Fin 16, s.stack[k].toNat ≤ 0x1000) (hf : s.fault = none) : s.Inv :=
  ⟨hmem, hsp, hpc, hstack, by simp [latchConsistent, hf]⟩

/-- Taking a fault keeps the invariant when the new record fits the state it is taken in (R163). -/
theorem takeFault_inv {s : State} {p : Word} {c : Cause} {info : Nat} (h : s.Inv) (hp : p.toNat ≤ 0x10FE)
    (hr : recordConsistent (takeFault p c info s) { cause := c, pc := p, info := info } = true) :
    (takeFault p c info s).Inv := by
  obtain ⟨hmem, hsp, -, hstack, -⟩ := h
  exact ⟨hmem, hsp, hp, hstack, hr⟩

/-- The record of a bad address fits every state: that cause says nothing of the stack pointer (R161). -/
theorem recordConsistent_addressOutOfRange {s : State} (p : Word) {info : Nat} (hlo : 4096 ≤ info)
    (hhi : info ≤ 0xFFFF) :
    recordConsistent (takeFault p .addressOutOfRange info s)
      { cause := .addressOutOfRange, pc := p, info := info } = true := by
  simp [recordConsistent, hlo, hhi]

/-- The invariant does not look at the timers. -/
theorem tick_inv {s : State} (h : s.Inv) : (tick s).Inv := h

/-- The invariant does not look at the keypad. -/
theorem hostKeyWrite_inv {s : State} (k : Fin 16) (b : Bool) (h : s.Inv) : (hostKeyWrite k b s).Inv := h

theorem reset_inv : State.reset.Inv := by decide

theorem hostReset_inv (s : State) : (hostReset s).Inv := reset_inv

/-- A LOAD, accepted or not (R52): at most the bytes at `ROM_BASE`, which all lie inside memory. -/
theorem afterLoad_cases (bytes : List Byte) (s : State) :
    (bytes.length ≤ Config.romMax ∧
      afterLoad bytes s = { s with mem := Memory.writeBytes s.mem Config.romBase bytes }) ∨
    (Config.romMax < bytes.length ∧ afterLoad bytes s = s) := by
  unfold afterLoad hostLoad
  by_cases hlen : bytes.length ≤ Config.romMax
  · exact .inl ⟨hlen, by rw [if_pos hlen]⟩
  · exact .inr ⟨by omega, by rw [if_neg hlen]⟩

theorem afterLoad_inv {s : State} (bytes : List Byte) (h : s.Inv) : (afterLoad bytes s).Inv := by
  rcases afterLoad_cases bytes s with ⟨hlen, e⟩ | ⟨-, e⟩
  · obtain ⟨hmem, hrest⟩ := h
    have hfits : Config.romBase + bytes.length ≤ Config.memSize := by
      simp only [Config.romMax, Config.romBase, Config.memSize] at hlen ⊢
      omega
    rw [e]
    exact ⟨Memory.wf_writeBytes bytes hmem (.inr hfits), hrest⟩
  · rw [e]
    exact h

/-! ### Instructions -/

/-- The outcome is a next state that meets the invariant. -/
def AnswersInv (r : Result) : Prop := ∃ t, r = .next t ∧ t.Inv

/-- The state an instruction runs on: it meets the invariant, no fault is latched, and `PC` was advanced past the two
bytes of a fetch that succeeded (R81, R82). -/
structure State.Ready (s : State) : Prop where
  inv : s.Inv
  running : s.fault = none
  two_le_pc : 2 ≤ s.pc.toNat
  pc_le : s.pc.toNat ≤ 0x1000

theorem State.toNat_pc0 {s : State} (h : 2 ≤ s.pc.toNat) : s.pc0.toNat = s.pc.toNat - 2 := by
  unfold State.pc0
  bv_omega

theorem State.advance_ready {s : State} (h : s.Inv) (hf : s.fault = none) (hp : s.pc.toNat ≤ 4094) :
    s.advance.Ready := by
  have hpc : s.advance.pc.toNat = s.pc.toNat + 2 := by
    rw [State.advance_pc]
    bv_omega
  obtain ⟨hmem, hsp, -, hstack, -⟩ := h
  exact ⟨State.inv_of_running hmem hsp (by omega) hstack hf, hf, by omega, by omega⟩

section
variable {s : State} (hs : s.Ready)
include hs

/-- An instruction that leaves memory, stack and latch alone need only keep `PC` in bounds. -/
theorem State.Ready.answersInv_setPc {v : Vector Byte 16} {i pc : Word} {dt st : Byte} {disp : Display} {n : Nat}
    (hpc : pc.toNat ≤ 0x10FE) :
    AnswersInv (.next { s with v := v, i := i, pc := pc, dt := dt, st := st, disp := disp, draws := n }) := by
  obtain ⟨hmem, hsp, -, hstack, -⟩ := hs.inv
  exact ⟨_, rfl, State.inv_of_running hmem hsp hpc hstack hs.running⟩

/-- An instruction that also leaves the advanced `PC` alone has nothing to check: 0x1000 is in bounds. -/
theorem State.Ready.answersInv_keepPc {v : Vector Byte 16} {i : Word} {dt st : Byte} {disp : Display} {n : Nat} :
    AnswersInv (.next { s with v := v, i := i, dt := dt, st := st, disp := disp, draws := n }) :=
  hs.answersInv_setPc (Nat.le_trans hs.pc_le (by decide))

/-- A fault raised by an instruction goes back to its own address, where the record has to fit (R86, R161). -/
theorem State.Ready.answersInv_raise {c : Cause} {info : Nat}
    (hr : recordConsistent (takeFault s.pc0 c info s) { cause := c, pc := s.pc0, info := info } = true) :
    AnswersInv (raise c info s) := by
  have hp0 := State.toNat_pc0 hs.two_le_pc
  have hp := hs.pc_le
  exact ⟨_, rfl, takeFault_inv hs.inv (by omega) hr⟩

/-- A guarded access at `I` is left with the case in bounds: the fault's address fits its record (R43). -/
theorem State.Ready.answersInv_guardRange {n : Nat} {r : Result}
    (hr : n = 0 ∨ s.i.toNat + n ≤ 4096 → AnswersInv r) : AnswersInv (guardRange s.i.toNat n s r) := by
  rcases guardRange_cases s.i.toNat n s r with ⟨-, -, e⟩ | ⟨hin, e⟩
  · rw [e]
    exact hs.answersInv_raise (recordConsistent_addressOutOfRange _ (by omega) (by omega))
  · rw [e]
    exact hr hin

theorem State.Ready.answersInv_storeAtI (bs : List Byte) : AnswersInv (storeAtI bs s) := by
  refine hs.answersInv_guardRange fun hin => ?_
  obtain ⟨hmem, hsp, hpc, hstack, -⟩ := hs.inv
  have hmem' := Memory.wf_writeBytes bs hmem (hin.imp_left List.eq_nil_of_length_eq_zero)
  exact ⟨_, rfl, State.inv_of_running hmem' hsp hpc hstack hs.running⟩

theorem State.Ready.answersInv_skipIf (c : Bool) : AnswersInv (skipIf c s) := by
  rcases skipIf_cases c s with ⟨-, e⟩ | ⟨-, e⟩ <;> rw [e]
  · have hp := hs.pc_le
    exact hs.answersInv_setPc (by bv_omega)
  · exact hs.answersInv_keepPc

theorem State.Ready.answersInv_skipOnKey (x : Reg) (down : Bool) : AnswersInv (skipOnKey x down s) := by
  unfold skipOnKey
  cases hk : keyIndex (s.reg x) with
  | some k => exact hs.answersInv_skipIf _
  | none =>
    have hlo : 16 ≤ (s.reg x).toNat := keyIndex_eq_none.1 hk
    have hhi : (s.reg x).toNat ≤ 0xFF := by omega
    exact hs.answersInv_raise (by simp [recordConsistent, hlo, hhi])

theorem State.Ready.answersInv_ret : AnswersInv (execRet s) := by
  obtain ⟨hmem, hsp, -, hstack, -⟩ := hs.inv
  rcases execRet_cases s with ⟨h0, e⟩ | ⟨hidx, h1, h16, e⟩ | ⟨hsp', -⟩
  · rw [e]
    exact hs.answersInv_raise (by simp [recordConsistent, h0])
  · have hsp' : (popAndJump s hidx).sp.toNat ≤ 16 := by
      rw [popAndJump_sp]
      bv_omega
    have hret := hstack ⟨s.sp.toNat - 1, hidx⟩
    exact ⟨_, e, State.inv_of_running hmem hsp' (Nat.le_trans hret (by decide)) hstack hs.running⟩
  · omega

/-- The pushed return address is the advanced `PC`, at most 0x1000 (R93). -/
theorem State.Ready.answersInv_call (nnn : BitVec 12) : AnswersInv (execCall nnn s) := by
  obtain ⟨hmem, hsp, -, hstack, -⟩ := hs.inv
  have htarget := toNat_zextAddr nnn
  rcases execCall_cases nnn s with ⟨h16, e⟩ | ⟨hlt, e⟩ | ⟨hsp', -⟩
  · rw [e]
    have hinfo : nnn.toNat ≤ 0xFFF := by omega
    exact hs.answersInv_raise (by simp [recordConsistent, h16, hinfo])
  · have hsp' : (pushAndJump s hlt (zextAddr nnn)).sp.toNat ≤ 16 := by
      rw [pushAndJump_sp]
      bv_omega
    have hstack' : ∀ k : Fin 16, (pushAndJump s hlt (zextAddr nnn)).stack[k].toNat ≤ 0x1000 := by
      intro k
      simp only [pushAndJump_stack, Fin.getElem_fin, Vector.getElem_set]
      split
      · exact hs.pc_le
      · exact hstack k
    exact ⟨_, e, State.inv_of_running hmem hsp' (by rw [pushAndJump_pc]; omega) hstack' hs.running⟩
  · omega

theorem State.Ready.answersInv_ldVxK (x : Reg) : AnswersInv (execLdVxK x s) := by
  rcases execLdVxK_cases x s with ⟨-, e⟩ | ⟨k, -, -, e⟩ <;> rw [e]
  · have hp0 := State.toNat_pc0 hs.two_le_pc
    have hp := hs.pc_le
    exact hs.answersInv_setPc (by omega)
  · exact hs.answersInv_keepPc

/-- Every instruction answers a next state that meets the invariant: the stop of CALL and RET (log 7) is out of reach,
and the highest `PC` is the one JP V0 can install, 0xFFF + 0xFF (R24, R94). -/
theorem State.Ready.answersInv_exec (i : Instr) : AnswersInv (exec i s) := by
  cases i with
  | jp nnn =>
    have htarget := toNat_zextAddr nnn
    exact hs.answersInv_setPc (by omega)
  | jpV0 nnn =>
    have htarget := toNat_offsetTarget nnn s
    exact hs.answersInv_setPc (by omega)
  | call nnn => exact hs.answersInv_call nnn
  | ret => exact hs.answersInv_ret
  | seByte x nn | sneByte x nn | seReg x y | sneReg x y => exact hs.answersInv_skipIf _
  | skp x | sknp x => exact hs.answersInv_skipOnKey x _
  | ldVxK x => exact hs.answersInv_ldVxK x
  | ldB x | ldMemVx x => exact hs.answersInv_storeAtI _
  | drw x y n | ldVxMem x => exact hs.answersInv_guardRange fun _ => hs.answersInv_keepPc
  | cls | ldByte x nn | addByte x nn | ldReg x y | orReg x y | andReg x y | xorReg x y | addReg x y | sub x y
  | shr x | subn x y | shl x | ldI nnn | rnd x nn | ldVxDt x | ldDtVx x | ldStVx x | addI x | ldF x | nop word =>
    exact hs.answersInv_keepPc

end

/-! ### The cycle -/

theorem step_halted {s : State} (hf : s.fault ≠ none) : step s = .next s := by
  obtain ⟨r, hr⟩ := Option.ne_none_iff_exists'.1 hf
  unfold step
  rw [hr]

theorem step_fetchFault {s : State} (hf : s.fault = none) (hp : 4095 ≤ s.pc.toNat) :
    step s = .next (fetchFault s) := by
  unfold step
  rw [hf]
  simp only [fetch_eq_none hp]

/-- A failed fetch records an address between 4096 and 0xFFFF and leaves `PC` where it was (R81, R161). -/
theorem fetchFault_inv {s : State} (h : s.Inv) : (fetchFault s).Inv := by
  have ⟨_, _, hpc, _, _⟩ := h
  have hlo : 4096 ≤ offendingAddress s.pc.toNat := Nat.le_max_right _ _
  have hhi : offendingAddress s.pc.toNat ≤ 0xFFFF := Nat.max_le.2 ⟨by omega, by decide⟩
  exact takeFault_inv h hpc (recordConsistent_addressOutOfRange _ hlo hhi)

theorem finishCycle_answersInv {r : Result} (h : AnswersInv r) : AnswersInv (finishCycle r) := by
  obtain ⟨t, rfl, ht⟩ := h
  refine ⟨_, rfl, ?_⟩
  split
  · exact ht
  · exact tick_inv ht

theorem step_answersInv {s : State} (h : s.Inv) : AnswersInv (step s) := by
  by_cases hf : s.fault = none
  · by_cases hp : s.pc.toNat ≤ 4094
    · rw [step_running hf hp]
      exact finishCycle_answersInv ((State.advance_ready h hf hp).answersInv_exec _)
    · exact ⟨_, step_fetchFault hf (by omega), fetchFault_inv h⟩
  · exact ⟨s, step_halted hf, h⟩

theorem step_keeps_inv {s t : State} (h : s.Inv) (hst : step s = .next t) : t.Inv := by
  obtain ⟨u, hsu, hu⟩ := step_answersInv h
  cases hsu.symm.trans hst
  exact hu

theorem Reachable.inv {s : State} (h : Reachable s) : s.Inv := by
  induction h with
  | reset => exact reset_inv
  | step _ hst ih => exact step_keeps_inv ih hst
  | load bytes _ ih => exact afterLoad_inv bytes ih
  | keyWrite k b _ ih => exact hostKeyWrite_inv k b ih
  | hostReset _ _ => exact hostReset_inv _

/-- Settles O53, by cases on the latch, the fetch and the instruction. -/
theorem invariantStatesStepOn : Obligations.InvariantStatesStepOn := by
  unfold Obligations.InvariantStatesStepOn
  exact fun _ h => step_answersInv h

/-- Settles O48, by induction on how the state was reached. -/
theorem reachableCoreAlwaysSteps : Obligations.ReachableCoreAlwaysSteps := by
  unfold Obligations.ReachableCoreAlwaysSteps
  intro s h
  obtain ⟨t, hst, -⟩ := step_answersInv h.inv
  exact ⟨h.inv, t, hst⟩

end Sys2Proof.Machine
end

section
/-! PROOFS. The elements of the state (10_state.md): what each instruction writes, what it depends on, the timers'
countdown, and the values after RESET. -/

namespace Sys2Proof.Machine

/-- Settles O45, by the step lemma of the invariant. -/
theorem stepKeepsMachineInvariant : Obligations.StepKeepsMachineInvariant := by
  unfold Obligations.StepKeepsMachineInvariant
  exact fun _ _ => step_keeps_inv

/-- Settles O46, by computing the invariant at the reset state. -/
theorem resetMeetsMachineInvariant : Obligations.ResetMeetsMachineInvariant := reset_inv

/-! ### What an instruction writes -/

/-- Where `exec i` takes `s` to `t`, the elements that `i` does not write are kept, and the timers are what `i` leaves.
A field not given is proved by computing that element of `t`. -/
structure Frame (i : Instr) (s t : State) : Prop where
  reg : ∀ k, writesReg i k = false → t.reg k = s.reg k := by intros; rfl
  key : t.key = s.key := by rfl
  mem : storesMemory i = false → t.mem = s.mem := by intros; rfl
  index : setsIndex i = false → t.i = s.i := by intros; rfl
  stack : (∀ nnn, i ≠ .call nnn) → t.stack = s.stack := by intros; rfl
  sp : (∀ nnn, i ≠ .call nnn) → i ≠ .ret → t.sp = s.sp := by intros; rfl
  disp : writesDisplay i = false → t.disp = s.disp := by intros; rfl
  dt : t.dt = timerLeft i s := by rfl
  st : t.st = soundLeft i s := by rfl
  fault : mayFault i = false → t.fault = s.fault := by intros; rfl
  pc : keepsPc i = true → t.fault = none → t.pc = s.pc := by intros; rfl

/-- If the outcome is a next state, it is framed by the instruction. -/
def Framed (i : Instr) (s : State) : Result → Prop
  | .next t => Frame i s t
  | .fault _ | .refused _ => True

section
variable {i : Instr} {s : State}

theorem timerLeft_of_mayFault (hm : mayFault i = true) : timerLeft i s = s.dt := by
  unfold timerLeft
  split
  · cases hm
  · rfl

theorem soundLeft_of_mayFault (hm : mayFault i = true) : soundLeft i s = s.st := by
  unfold soundLeft
  split
  · cases hm
  · rfl

theorem framed_raise {c : Cause} {info : Nat} (hm : mayFault i = true) : Framed i s (raise c info s) := by
  change Frame i s (takeFault s.pc0 c info s)
  exact
    { dt := (timerLeft_of_mayFault hm).symm
      st := (soundLeft_of_mayFault hm).symm
      fault := fun h => absurd (hm.symm.trans h) nofun
      pc := nofun }

/-- An access of no bytes raises nothing, so only the others need be able to fault (R43, R162). -/
theorem framed_guardRange {base n : Nat} {r : Result} (hm : 0 < n → mayFault i = true) (hr : Framed i s r) :
    Framed i s (guardRange base n s r) := by
  rcases guardRange_cases base n s r with ⟨h0, -, e⟩ | ⟨-, e⟩ <;> rw [e]
  · exact framed_raise (hm h0)
  · exact hr

theorem framed_storeAtI {bs : List Byte} (hm : mayFault i = true) (hmem : storesMemory i = true) :
    Framed i s (storeAtI bs s) := by
  refine framed_guardRange (fun _ => hm) ?_
  change Frame i s { s with mem := _ }
  exact
    { mem := fun h => absurd (hmem.symm.trans h) nofun
      dt := (timerLeft_of_mayFault hm).symm
      st := (soundLeft_of_mayFault hm).symm }

/-- Only registers are written, and those the table of R35 lists. -/
theorem framed_setRegs {v : Vector Byte 16} (hv : ∀ k : Reg, writesReg i k = false → v[k] = s.v[k])
    (hdt : s.dt = timerLeft i s) (hst : s.st = soundLeft i s) : Framed i s (.next { s with v := v }) := by
  change Frame i s { s with v := v }
  exact { reg := hv, dt := hdt, st := hst }

theorem framed_setPc {pc : Word} (hpc : keepsPc i = false) (hdt : s.dt = timerLeft i s)
    (hst : s.st = soundLeft i s) : Framed i s (.next { s with pc := pc }) := by
  change Frame i s { s with pc := pc }
  exact { dt := hdt, st := hst, pc := fun h => absurd (hpc.symm.trans h) nofun }

theorem framed_skipIf {c : Bool} (hpc : keepsPc i = false) (hdt : s.dt = timerLeft i s)
    (hst : s.st = soundLeft i s) : Framed i s (skipIf c s) := by
  rcases skipIf_cases c s with ⟨-, e⟩ | ⟨-, e⟩ <;> rw [e] <;> exact framed_setPc hpc hdt hst

theorem framed_skipOnKey {x : Reg} {down : Bool} (hm : mayFault i = true) (hpc : keepsPc i = false) :
    Framed i s (skipOnKey x down s) := by
  have hdt := (timerLeft_of_mayFault (s := s) hm).symm
  have hst := (soundLeft_of_mayFault (s := s) hm).symm
  unfold skipOnKey
  cases keyIndex (s.reg x) with
  | some k => exact framed_skipIf hpc hdt hst
  | none => exact framed_raise hm

theorem framed_setReg {x : Reg} {b : Byte} (hx : ∀ k : Reg, writesReg i k = false → k ≠ x)
    (hdt : s.dt = timerLeft i s) (hst : s.st = soundLeft i s) : Framed i s (.next (s.setReg x b)) :=
  framed_setRegs (fun k hk => s.reg_setReg_other b (hx k hk)) hdt hst

end

theorem framed_ret (s : State) : Framed .ret s (execRet s) := by
  rcases execRet_cases s with ⟨-, e⟩ | ⟨h, -, -, e⟩ | ⟨-, e⟩ <;> rw [e]
  · exact framed_raise rfl
  · change Frame .ret s (popAndJump s h)
    exact { sp := fun _ hne => absurd rfl hne, pc := nofun }
  · trivial

theorem framed_call (nnn : BitVec 12) (s : State) : Framed (.call nnn) s (execCall nnn s) := by
  rcases execCall_cases nnn s with ⟨-, e⟩ | ⟨h, e⟩ | ⟨-, e⟩ <;> rw [e]
  · exact framed_raise rfl
  · change Frame (.call nnn) s (pushAndJump s h (zextAddr nnn))
    exact
      { stack := fun hne => absurd rfl (hne nnn)
        sp := fun hne _ => absurd rfl (hne nnn)
        pc := nofun }
  · trivial

theorem framed_drw (x y : Reg) (n : BitVec 4) (s : State) : Framed (.drw x y n) s (execDrw x y n s) := by
  refine framed_guardRange (fun h0 => ?_) ?_
  · have hn : n ≠ 0#4 := by rintro rfl; cases h0
    exact decide_eq_true hn
  · change Frame (.drw x y n) s { s.setReg vf _ with disp := _ }
    exact { reg := fun k hk => s.reg_setReg_other _ (of_decide_eq_false hk), disp := nofun }

/-- Every instruction keeps what the tables of R20 and R35 do not list as written by it. -/
theorem exec_framed (i : Instr) (s : State) : Framed i s (exec i s) := by
  cases i with
  | ret => exact framed_ret s
  | call nnn => exact framed_call nnn s
  | drw x y n => exact framed_drw x y n s
  | jp nnn | jpV0 nnn => exact framed_setPc rfl rfl rfl
  | seByte x nn | sneByte x nn | seReg x y | sneReg x y => exact framed_skipIf rfl rfl rfl
  | skp x | sknp x => exact framed_skipOnKey rfl rfl
  | ldB x | ldMemVx x => exact framed_storeAtI rfl rfl
  | ldVxMem x =>
    refine framed_guardRange (fun _ => rfl) (framed_setRegs (fun k hk => ?_) rfl rfl)
    rw [reg_loadedRegs, if_neg (of_decide_eq_false hk), State.reg]
  | ldVxK x =>
    rcases execLdVxK_cases x s with ⟨-, e⟩ | ⟨k, -, -, e⟩ <;> rw [exec, e]
    · exact framed_setPc rfl rfl rfl
    · exact framed_setReg (fun _ hk => of_decide_eq_false hk) rfl rfl
  | ldByte x nn | addByte x nn | ldReg x y | orReg x y | andReg x y | xorReg x y | ldVxDt x =>
    exact framed_setReg (fun _ hk => of_decide_eq_false hk) rfl rfl
  | addReg x y | sub x y | subn x y | shr x | shl x =>
    refine framed_setRegs (fun k hk => ?_) rfl rfl
    obtain ⟨hx, hf⟩ := not_or.1 (of_decide_eq_false hk)
    exact (s.setReg x _).reg_setReg_other _ hf |>.trans (s.reg_setReg_other _ hx)
  | rnd x nn =>
    change Frame _ s { s.setReg x _ with draws := _ }
    exact { reg := fun k hk => s.reg_setReg_other _ (of_decide_eq_false hk) }
  | cls =>
    change Frame _ s { s with disp := _ }
    exact { disp := nofun }
  | ldI nnn | addI x | ldF x =>
    change Frame _ s { s with i := _ }
    exact { index := nofun }
  | ldDtVx x =>
    change Frame _ s { s with dt := s.reg x }
    exact {}
  | ldStVx x =>
    change Frame _ s { s with st := s.reg x }
    exact {}
  | nop word =>
    change Frame _ s s
    exact {}

theorem exec_frame {i : Instr} {s t : State} (h : exec i s = .next t) : Frame i s t := by
  have hf := exec_framed i s
  rw [h] at hf
  exact hf

/-- Settles O41, by cases on the instruction. -/
theorem writersOfStateElements : Obligations.WritersOfStateElements := by
  unfold Obligations.WritersOfStateElements
  intro i s t h
  have f := exec_frame h
  exact ⟨f.key, f.mem, f.index, f.stack, f.sp, f.disp, f.dt, f.st, f.fault, f.pc⟩

/-! ### What an instruction depends on: the registers -/

/-- Two register files after an instruction that ran on `v` and on `w`: each register is given the same value in
both, or left alone in both. -/
def RegsAgree (v w a b : Vector Byte 16) : Prop := ∀ k : Reg, b[k] = a[k] ∨ (a[k] = v[k] ∧ b[k] = w[k])

theorem RegsAgree.keep {v w : Vector Byte 16} : RegsAgree v w v w := fun _ => .inr ⟨rfl, rfl⟩

theorem RegsAgree.set {v w a b : Vector Byte 16} {x : Reg} {c d : Byte} (h : RegsAgree v w a b) (hc : c = d) :
    RegsAgree v w (a.set x c) (b.set x d) := by
  intro k
  simp only [Fin.getElem_fin, Vector.getElem_set]
  split
  · exact .inl hc.symm
  · exact h k

section
variable {s : State} {w : Vector Byte 16}

theorem agree_next {t t' : State} (ht : t' = { t with v := t'.v }) (h : RegsAgree s.v w t.v t'.v) :
    AgreeButRegs s { s with v := w } (.next t) (.next t') := ⟨ht, h⟩

theorem agree_raise {c : Cause} {m n : Nat} (hn : m = n) :
    AgreeButRegs s { s with v := w } (raise c m s) (raise c n { s with v := w }) := by
  subst hn
  exact agree_next rfl .keep

theorem agree_guardRange {base n : Nat} {r r' : Result} (h : AgreeButRegs s { s with v := w } r r') :
    AgreeButRegs s { s with v := w } (guardRange base n s r) (guardRange base n { s with v := w } r') := by
  unfold guardRange
  split
  · exact agree_raise rfl
  · exact h

theorem agree_storeAtI {bs bs' : List Byte} (hbs : bs = bs') :
    AgreeButRegs s { s with v := w } (storeAtI bs s) (storeAtI bs' { s with v := w }) := by
  subst hbs
  exact agree_guardRange (agree_next rfl .keep)

theorem agree_skipIf {c c' : Bool} (hc : c = c') :
    AgreeButRegs s { s with v := w } (skipIf c s) (skipIf c' { s with v := w }) := by
  subst hc
  cases c <;> exact agree_next rfl .keep

theorem agree_skipOnKey {x : Reg} {down : Bool} (hx : s.reg x = State.reg { s with v := w } x) :
    AgreeButRegs s { s with v := w } (skipOnKey x down s) (skipOnKey x down { s with v := w }) := by
  unfold skipOnKey
  rw [← hx]
  cases keyIndex (s.reg x) with
  | some k => exact agree_skipIf rfl
  | none => exact agree_raise rfl

theorem agree_ret : AgreeButRegs s { s with v := w } (execRet s) (execRet { s with v := w }) := by
  unfold execRet
  split
  · exact agree_raise rfl
  · split
    · exact agree_next rfl .keep
    · rfl

theorem agree_call {nnn : BitVec 12} :
    AgreeButRegs s { s with v := w } (execCall nnn s) (execCall nnn { s with v := w }) := by
  unfold execCall
  split
  · exact agree_raise rfl
  · split
    · exact agree_next rfl .keep
    · rfl

theorem agree_ldVxK {x : Reg} :
    AgreeButRegs s { s with v := w } (execLdVxK x s) (execLdVxK x { s with v := w }) := by
  have hkeys : State.leastPressed { s with v := w } = s.leastPressed := rfl
  unfold execLdVxK
  rw [hkeys]
  cases s.leastPressed with
  | none => exact agree_next rfl .keep
  | some k => exact agree_next rfl (.set .keep rfl)

/-- LD Vx,[I] gives each register up to X its byte of memory, and leaves the others alone. -/
theorem regsAgree_loadedRegs {x : Reg} :
    RegsAgree s.v w (loadedRegs s x) (loadedRegs { s with v := w } x) := by
  intro k
  rw [reg_loadedRegs, reg_loadedRegs]
  split
  · exact .inl rfl
  · exact .inr ⟨rfl, rfl⟩

theorem blockRegs_congr {x : Reg} (h : ∀ k, k ≤ x → s.reg k = State.reg { s with v := w } k) :
    blockRegs s x = blockRegs { s with v := w } x := by
  have hlen := length_blockRegs s x
  refine List.ext_getElem (hlen.trans (length_blockRegs _ x).symm) fun j hj hj' => ?_
  have hjx : j ≤ x.val := by omega
  have hk := h ⟨j, by omega⟩ hjx
  rw [← getElem_blockRegs s x _ hj, ← getElem_blockRegs _ x _ hj'] at hk
  exact hk

theorem drawn_congr {x y : Reg} {n : BitVec 4} (hx : s.reg x = State.reg { s with v := w } x)
    (hy : s.reg y = State.reg { s with v := w } y) : drawn s x y n = drawn { s with v := w } x y n := by
  unfold drawn
  rw [hx, hy]

theorem agree_drw {x y : Reg} {n : BitVec 4} (hx : s.reg x = State.reg { s with v := w } x)
    (hy : s.reg y = State.reg { s with v := w } y) :
    AgreeButRegs s { s with v := w } (execDrw x y n s) (execDrw x y n { s with v := w }) := by
  unfold execDrw
  rw [← drawn_congr hx hy]
  exact agree_guardRange (agree_next rfl (.set .keep rfl))

end

/-- Registers the table does not list as read cannot change what the instruction does (R35). -/
theorem exec_agreeButRegs (i : Instr) (s : State) (w : Vector Byte 16)
    (h : ∀ k, readsReg i k = true → s.reg k = State.reg { s with v := w } k) :
    AgreeButRegs s { s with v := w } (exec i s) (exec i { s with v := w }) := by
  cases i with
  | ret => exact agree_ret
  | call nnn => exact agree_call
  | ldVxK x => exact agree_ldVxK
  | cls | jp nnn | ldI nnn | nop word => exact agree_next rfl .keep
  | ldByte x nn | rnd x nn | ldVxDt x => exact agree_next rfl (.set .keep rfl)
  | ldVxMem x => exact agree_guardRange (agree_next rfl regsAgree_loadedRegs)
  | ldMemVx x => exact agree_storeAtI (blockRegs_congr fun k hk => h k (decide_eq_true hk))
  | jpV0 nnn =>
    have h0 := h 0 rfl
    exact agree_next (by simp only [offsetTarget, h0]) .keep
  | seByte x nn | sneByte x nn =>
    have hx := h x (decide_eq_true rfl)
    exact agree_skipIf (by rw [hx])
  | seReg x y | sneReg x y =>
    have hx := h x (decide_eq_true (.inl rfl))
    have hy := h y (decide_eq_true (.inr rfl))
    exact agree_skipIf (by rw [hx, hy])
  | skp x | sknp x => exact agree_skipOnKey (h x (decide_eq_true rfl))
  | ldB x =>
    have hx := h x (decide_eq_true rfl)
    exact agree_storeAtI (congrArg decimalDigits hx)
  | ldDtVx x | ldStVx x | addI x | ldF x =>
    have hx := h x (decide_eq_true rfl)
    exact agree_next (by simp only [hx]) .keep
  | addByte x nn =>
    have hx := h x (decide_eq_true rfl)
    exact agree_next rfl (.set .keep (by rw [hx]))
  | ldReg x y => exact agree_next rfl (.set .keep (h y (decide_eq_true rfl)))
  | orReg x y | andReg x y | xorReg x y =>
    have hx := h x (decide_eq_true (.inl rfl))
    have hy := h y (decide_eq_true (.inr rfl))
    exact agree_next rfl (.set .keep (by rw [hx, hy]))
  | shr x | shl x =>
    have hx := h x (decide_eq_true rfl)
    exact agree_next rfl (.set (.set .keep (by rw [hx])) (by rw [hx]))
  | addReg x y | sub x y | subn x y =>
    have hx := h x (decide_eq_true (.inl rfl))
    have hy := h y (decide_eq_true (.inr rfl))
    exact agree_next rfl (.set (.set .keep (by rw [hx, hy])) (by rw [hx, hy]))
  | drw x y n => exact agree_drw (h x (decide_eq_true (.inl rfl))) (h y (decide_eq_true (.inr rfl)))

/-- Settles O40: the writes from the frame of the instruction, the reads by cases on the instruction. -/
theorem registerAccessIsTheTable : Obligations.RegisterAccessIsTheTable := by
  unfold Obligations.RegisterAccessIsTheTable
  exact ⟨fun _ _ _ k h => (exec_frame h).reg k, fun i s w h => exec_agreeButRegs i s w fun k hk => (h k hk).symm⟩

/-! ### The timers -/

section
variable {s : State} {b : Byte}

theorem withSoundTimer_guardRange {base n : Nat} {r r' : Result} (h : r' = withSoundTimer b r) :
    guardRange base n { s with st := b } r' = withSoundTimer b (guardRange base n s r) := by
  unfold guardRange
  split
  · rfl
  · exact h

theorem withSoundTimer_skipIf {c : Bool} :
    skipIf c { s with st := b } = withSoundTimer b (skipIf c s) := by
  cases c <;> rfl

theorem withSoundTimer_skipOnKey {x : Reg} {down : Bool} :
    skipOnKey x down { s with st := b } = withSoundTimer b (skipOnKey x down s) := by
  have hx : State.reg { s with st := b } x = s.reg x := rfl
  unfold skipOnKey
  rw [hx]
  cases keyIndex (s.reg x) with
  | some k => exact withSoundTimer_skipIf
  | none => rfl

theorem withSoundTimer_ret : execRet { s with st := b } = withSoundTimer b (execRet s) := by
  unfold execRet
  split
  · rfl
  · split <;> rfl

theorem withSoundTimer_call {nnn : BitVec 12} :
    execCall nnn { s with st := b } = withSoundTimer b (execCall nnn s) := by
  unfold execCall
  split
  · rfl
  · split <;> rfl

theorem withSoundTimer_ldVxK {x : Reg} :
    execLdVxK x { s with st := b } = withSoundTimer b (execLdVxK x s) := by
  have hkeys : State.leastPressed { s with st := b } = s.leastPressed := rfl
  unfold execLdVxK
  rw [hkeys]
  cases s.leastPressed <;> rfl

end

/-- No instruction reads ST: every one but LD ST carries it along (R26). -/
theorem exec_withSoundTimer (i : Instr) (s : State) (b : Byte) (hi : ∀ x, i ≠ .ldStVx x) :
    exec i { s with st := b } = withSoundTimer b (exec i s) := by
  cases i with
  | ldStVx x => exact absurd rfl (hi x)
  | ret => exact withSoundTimer_ret
  | call nnn => exact withSoundTimer_call
  | ldVxK x => exact withSoundTimer_ldVxK
  | seByte x nn | sneByte x nn | seReg x y | sneReg x y => exact withSoundTimer_skipIf
  | skp x | sknp x => exact withSoundTimer_skipOnKey
  | ldB x | ldMemVx x | ldVxMem x | drw x y n => exact withSoundTimer_guardRange rfl
  | cls | jp nnn | jpV0 nnn | ldByte x nn | addByte x nn | ldReg x y | orReg x y | andReg x y | xorReg x y
  | addReg x y | sub x y | shr x | subn x y | shl x | ldI nnn | rnd x nn | ldVxDt x | ldDtVx x | addI x | ldF x
  | nop word => rfl

theorem timerLeft_advance (i : Instr) (s : State) : timerLeft i s.advance = timerLeft i s := by
  unfold timerLeft
  split <;> rfl

theorem soundLeft_advance (i : Instr) (s : State) : soundLeft i s.advance = soundLeft i s := by
  unfold soundLeft
  split <;> rfl

/-- A completed cycle is one tick of the timers its instruction left (R84). -/
theorem step_timers {s t : State} (hf : s.fault = none) (hst : step s = .next t) (ht : t.fault = none) :
    t.dt = countDown (timerLeft (decodeWord (fetchedWord s)) s) ∧
      t.st = countDown (soundLeft (decodeWord (fetchedWord s)) s) := by
  rcases step_cases hst with ⟨hf', -⟩ | ⟨-, -, rfl⟩ | ⟨-, -, u, hu, ⟨hu', rfl⟩ | ⟨-, rfl⟩⟩
  · exact absurd hf hf'
  · cases ht
  · exact absurd ht hu'
  · have hframe := exec_frame hu
    rw [tick_dt, tick_st, hframe.dt, hframe.st, timerLeft_advance, soundLeft_advance]
    exact ⟨rfl, rfl⟩

/-- Settles O11, from the frame of the decoded instruction and by cases on the instruction for ST. -/
theorem timersCountCompletedCycles : Obligations.TimersCountCompletedCycles := by
  unfold Obligations.TimersCountCompletedCycles
  refine ⟨fun s t hf hst ht => ?_, fun x s => ⟨_, rfl, s.reg_setReg_same x s.dt⟩, exec_withSoundTimer,
    fun _ _ _ => rfl⟩
  obtain ⟨hdt, hsound⟩ := step_timers hf hst ht
  rw [hdt, hsound]
  exact ⟨toNat_countDown _, toNat_countDown _⟩

/-! ### The stack pointer's own stop, and the values after RESET -/

/-- Settles O49: no other case of RET and CALL is left above 16. -/
theorem illegalStackPointerStops : Obligations.IllegalStackPointerStops := by
  unfold Obligations.IllegalStackPointerStops
  refine fun s nnn hsp => ⟨?_, ?_⟩
  · rcases execRet_cases s with ⟨h0, -⟩ | ⟨-, -, h16, -⟩ | ⟨-, e⟩
    · rw [h0] at hsp; cases hsp
    · omega
    · exact e
  · rcases execCall_cases nnn s with ⟨h16, -⟩ | ⟨hlt, -⟩ | ⟨-, e⟩
    · rw [h16] at hsp; exact absurd hsp (by decide)
    · omega
    · exact e

theorem length_font : font.length = 80 := rfl

theorem resetByte_outside {a : Nat} (h : a < 0x050 ∨ 0x09F < a) : resetByte a = 0x00#8 := by
  unfold resetByte Config.fontBase
  have hlen := length_font
  split
  · rw [List.getD_eq_default]
    omega
  · rfl

theorem resetByte_font {j : Nat} (h : j < 80) : font[j]? = some (resetByte (0x050 + j)) := by
  have hlen := length_font
  have hj : Config.fontBase + j - Config.fontBase = j := Nat.add_sub_cancel_left ..
  change _ = some (resetByte (Config.fontBase + j))
  rw [resetByte, if_pos (Nat.le_add_right ..), hj, List.getD_eq_getElem _ _ (by omega)]
  exact List.getElem?_eq_getElem _

theorem font_lowNibble : ∀ b ∈ font, b.toNat % 16 = 0 := by decide

theorem reg_reset (k : Reg) : State.reset.reg k = 0x00#8 := by simp [State.reg, State.reset]

theorem stack_reset (k : Fin 16) : State.reset.stack[k] = 0x0000#16 := by simp [State.reset]

theorem pressed_reset (k : Fin 16) : State.reset.pressed k = false := by simp [State.pressed, State.reset]

/-- Settles O50, element by element: unlisted memory reads as the reset contents. -/
theorem resetValues : Obligations.ResetValues := by
  unfold Obligations.ResetValues
  exact ⟨fun _ => resetByte_outside, fun _ => resetByte_font, length_font, font_lowNibble, reg_reset,
    rfl, rfl, rfl, rfl, rfl, stack_reset, pixel_blankDisplay, pressed_reset, rfl, fun _ => rfl⟩

end Sys2Proof.Machine
end

section
/-! PROOFS. Memory (20_memory.md): the byte order of the fetch, a block store over the next instruction, and LOAD. -/

namespace Sys2Proof.Machine

/-! ### The byte order of the fetch -/

theorem toNat_wordOfBytes (a b : Byte) : (wordOfBytes a b).toNat = a.toNat * 256 + b.toNat :=
  toNat_append_bits a b

theorem firstByte_wordOfBytes (a b : Byte) : firstByte (wordOfBytes a b) = a :=
  BitVec.extractLsb'_append_eq_left

theorem secondByte_wordOfBytes (a b : Byte) : secondByte (wordOfBytes a b) = b :=
  BitVec.extractLsb'_append_eq_right

/-- Settles O7, from the word of two bytes and its parts. -/
theorem fetchIsBigEndian : Obligations.FetchIsBigEndian := by
  unfold Obligations.FetchIsBigEndian
  exact fun s hpc => ⟨fetchedWord s, fetch_eq_some hpc, toNat_wordOfBytes _ _, firstByte_wordOfBytes _ _,
    secondByte_wordOfBytes _ _⟩

/-! ### Block stores and the next fetch -/

/-- The fetch combines whatever memory holds at `PC` and `PC + 1` now (R51). -/
theorem fetch_of_reads {s : State} {a b : Byte} (hpc : s.pc.toNat ≤ 4094) (ha : Memory.read s.mem s.pc.toNat = a)
    (hb : Memory.read s.mem (s.pc.toNat + 1) = b) : fetch s = some (wordOfBytes a b) := by
  rw [fetch_eq_some hpc, fetchedWord, ha, hb]

/-- A block store inside memory writes V0 to VX from `I` on and nothing else (R134). -/
theorem exec_ldMemVx_inside {x : Reg} {s : State} (h : s.i.toNat + x.val ≤ 4095) :
    exec (.ldMemVx x) s = .next { s with mem := Memory.writeBytes s.mem s.i.toNat (blockRegs s x) } := by
  have hlen := length_blockRegs s x
  rcases storeAtI_cases (blockRegs s x) s with ⟨-, hout, -⟩ | ⟨-, e⟩
  · omega
  · exact e

/-- After a block store from address `a` on, byte `k` of it reads as `V[k]`. -/
theorem read_writeBytes_blockRegs (m : Memory) (a : Nat) (s : State) {x k : Reg} (hk : k ≤ x) :
    Memory.read (Memory.writeBytes m a (blockRegs s x)) (a + k.val) = s.reg k := by
  have hlt : k.val < (blockRegs s x).length := by
    rw [length_blockRegs]
    exact Nat.lt_succ_of_le hk
  rw [Memory.read_writeBytes_inside m a _ _ hlt, getElem_blockRegs]

/-- Settles O34: the bytes at `PC` and `PC + 1` are the first two of the block store. -/
theorem storeIsSeenByNextFetch : Obligations.StoreIsSeenByNextFetch := by
  unfold Obligations.StoreIsSeenByNextFetch
  intro x s hx hi hin
  have hfirst := read_writeBytes_blockRegs s.mem s.i.toNat s (Fin.zero_le x)
  have hsecond := read_writeBytes_blockRegs s.mem s.i.toNat s (k := 1) hx
  refine ⟨_, exec_ldMemVx_inside hin, ?_⟩
  have hpc : s.pc.toNat ≤ 4094 := by
    rw [← hi]
    omega
  rw [hi] at hfirst hsecond ⊢
  exact fetch_of_reads hpc hfirst hsecond

/-! ### LOAD -/

theorem hostLoad_of_le {bytes : List Byte} (s : State) (h : bytes.length ≤ 3584) :
    hostLoad bytes s = .loaded { s with mem := Memory.writeBytes s.mem 0x200 bytes } :=
  if_pos h

theorem hostLoad_of_lt {bytes : List Byte} (s : State) (h : 3584 < bytes.length) :
    hostLoad bytes s = .romTooLarge :=
  if_neg (Nat.not_le.2 h)

/-- Settles O51, by the length of the ROM: what a block write reads back as inside and outside, or the refusal. -/
theorem loadCopiesRom : Obligations.LoadCopiesRom := by
  unfold Obligations.LoadCopiesRom
  refine fun bytes s => ⟨fun hle => ?_, fun hlt => ?_⟩
  · exact ⟨_, hostLoad_of_le s hle, rfl, fun k hk => Memory.read_writeBytes_inside s.mem 0x200 bytes k hk,
      fun a ha => Memory.read_writeBytes_outside s.mem 0x200 bytes a ha⟩
  · exact ⟨hostLoad_of_lt s hlt, by rw [afterLoad, hostLoad_of_lt s hlt]⟩

end Sys2Proof.Machine
end

section
/-! PROOFS. The encoding (30_encoding.md): the round trip, the decoder against the opcode table, the fields of an
opcode, the ignored bits, and printed words. -/

namespace Sys2Proof

/-! ### The decode tree (R64 to R69) -/

/-- The families whose row is fixed by the family alone (R64, R69). -/
def plainFamilies : List (BitVec 4) :=
  [0x1#4, 0x2#4, 0x3#4, 0x4#4, 0x5#4, 0x6#4, 0x7#4, 0x9#4, 0xA#4, 0xB#4, 0xC#4, 0xD#4]

/-- The key nibbles of family 0 that select an operation (R65). -/
def keys0 : List (BitVec 4) := [0x0#4, 0xE#4]

/-- The key nibbles of family 8 that select an operation (R66). -/
def keys8 : List (BitVec 4) := [0x0#4, 0x1#4, 0x2#4, 0x3#4, 0x4#4, 0x5#4, 0x6#4, 0x7#4, 0xE#4]

/-- The key nibbles of family E that select an operation (R67). -/
def keysE : List (BitVec 4) := [0x1#4, 0xE#4]

/-- The key bytes of family F that select an operation (R68). -/
def keysF : List Byte := [0x07#8, 0x0A#8, 0x15#8, 0x18#8, 0x1E#8, 0x29#8, 0x33#8, 0x55#8, 0x65#8]

/-- Only four families look at a second key. -/
theorem family_cases : ∀ f : BitVec 4, f ∈ plainFamilies ∨ f = 0x0#4 ∨ f = 0x8#4 ∨ f = 0xE#4 ∨ f = 0xF#4 := by
  decide

section
variable {w : Word}

theorem decodeWord_family0 (h : fieldF w = 0x0#4) : decodeWord w = decodeFamily0 w := by
  simp only [decodeWord, h]

theorem decodeWord_family8 (h : fieldF w = 0x8#4) : decodeWord w = decodeFamily8 w := by
  simp only [decodeWord, h]

theorem decodeWord_familyE (h : fieldF w = 0xE#4) : decodeWord w = decodeFamilyE w := by
  simp only [decodeWord, h]

theorem decodeWord_familyF (h : fieldF w = 0xF#4) : decodeWord w = decodeFamilyF w := by
  rw [decodeWord, h]
  rfl

theorem decodeFamily0_eq_nop (h : fieldN w ∉ keys0) : decodeFamily0 w = .nop w := by
  unfold decodeFamily0
  split
  case h_3 => rfl
  all_goals next e => exact absurd (e ▸ by decide) h

theorem decodeFamily8_eq_nop (h : fieldN w ∉ keys8) : decodeFamily8 w = .nop w := by
  unfold decodeFamily8
  split
  case h_10 => rfl
  all_goals next e => exact absurd (e ▸ by decide) h

theorem decodeFamilyE_eq_nop (h : fieldN w ∉ keysE) : decodeFamilyE w = .nop w := by
  unfold decodeFamilyE
  split
  case h_3 => rfl
  all_goals next e => exact absurd (e ▸ by decide) h

theorem decodeFamilyF_eq_nop (h : fieldNN w ∉ keysF) : decodeFamilyF w = .nop w := by
  unfold decodeFamilyF
  split
  case h_10 => rfl
  all_goals next e => exact absurd (e ▸ by decide) h

/-- A family that looks at a second key gives the no-op where that key is not one of the table's. -/
theorem decodeWord_eq_nop
    (h : fieldF w = 0x0#4 ∧ fieldN w ∉ keys0 ∨ fieldF w = 0x8#4 ∧ fieldN w ∉ keys8 ∨
      fieldF w = 0xE#4 ∧ fieldN w ∉ keysE ∨ fieldF w = 0xF#4 ∧ fieldNN w ∉ keysF) : decodeWord w = .nop w := by
  rcases h with ⟨hF, hkey⟩ | ⟨hF, hkey⟩ | ⟨hF, hkey⟩ | ⟨hF, hkey⟩
  · exact (decodeWord_family0 hF).trans (decodeFamily0_eq_nop hkey)
  · exact (decodeWord_family8 hF).trans (decodeFamily8_eq_nop hkey)
  · exact (decodeWord_familyE hF).trans (decodeFamilyE_eq_nop hkey)
  · exact (decodeWord_familyF hF).trans (decodeFamilyF_eq_nop hkey)

/-- The key of an unmapped word (R70) is none of its family's. -/
theorem decodeWord_of_unmapped (h : unmapped w = true) : decodeWord w = .nop w := by
  unfold unmapped at h
  refine decodeWord_eq_nop ?_
  split_ifs at h with h0 h8 hE hF
  · exact .inl ⟨h0, (by decide : ∀ k ∈ _, k ∉ keys0) _ (of_decide_eq_true h)⟩
  · exact .inr (.inl ⟨h8, (by decide : ∀ k ∈ _, k ∉ keys8) _ (of_decide_eq_true h)⟩)
  · exact .inr (.inr (.inl ⟨hE, (by decide : ∀ k ∈ _, k ∉ keysE) _ (of_decide_eq_true h)⟩))
  · exact .inr (.inr (.inr ⟨hF, of_decide_eq_true h⟩))

end

/-! ### The round trip -/

theorem decodeWord_encode {i : Instr} (h : i.wellFormed = true) : decodeWord (encode i) = i := by
  cases i with
  | cls | ret => rfl
  | jp nnn | call nnn | ldI nnn | jpV0 nnn => simp only [encode, decodeWord, fieldF_wordA, fieldNNN_wordA]
  | seByte x nn | sneByte x nn | ldByte x nn | addByte x nn | rnd x nn =>
    simp only [encode, decodeWord, fieldF_wordXB, fieldX_wordXB, fieldNN_wordXB]
  | seReg x y | sneReg x y | drw x y n =>
    simp only [encode, decodeWord, fieldF_wordXYN, fieldX_wordXYN, fieldY_wordXYN, fieldN_wordXYN]
  | ldReg x y | orReg x y | andReg x y | xorReg x y | addReg x y | sub x y | shr x | subn x y | shl x =>
    rw [encode, decodeWord_family8 (fieldF_wordXYN ..)]
    simp only [decodeFamily8, fieldX_wordXYN, fieldY_wordXYN, fieldN_wordXYN]
  | sknp x | skp x =>
    rw [encode, decodeWord_familyE (fieldF_wordXB ..), decodeFamilyE, fieldX_wordXB, fieldN_wordXB]
    rfl
  | ldVxDt x | ldVxK x | ldDtVx x | ldStVx x | addI x | ldF x | ldB x | ldMemVx x | ldVxMem x =>
    rw [encode, decodeWord_familyF (fieldF_wordXB ..)]
    simp only [decodeFamilyF, fieldX_wordXB, fieldNN_wordXB]
  | nop w => exact decodeWord_of_unmapped h

/-- Bytes of an instruction are read as its word, whatever follows them (R44, R60). -/
theorem decode_encodeBytes_append (i : Instr) (rest : List Byte) :
    decode (encodeBytes i ++ rest) = .ok (decodeWord (encode i), rest) := by
  change Except.ok (decodeWord (wordOfBytes (firstByte (encode i)) (secondByte (encode i))), rest) = _
  rw [wordOfBytes_bytes]

/-- Settles O1, by cases on the instruction: the fields of the word the encoder builds are the operands. -/
theorem decodeEncodeRoundTrip : Obligations.DecodeEncodeRoundTrip := by
  unfold Obligations.DecodeEncodeRoundTrip
  intro i rest h
  rw [decode_encodeBytes_append, decodeWord_encode h]
  exact ⟨rfl, rfl⟩

/-! ### The opcode table (R71) -/

/-- Two rows agree where both masks look only if they are the same row. -/
theorem row_eq_of_patterns_agree : ∀ r ∈ opcodeTable, ∀ q ∈ opcodeTable,
    r.pattern &&& q.mask = q.pattern &&& r.mask → r = q := by decide

theorem row_unique {w : Word} {r q : OpcodeRow} (hr : r ∈ opcodeTable) (hq : q ∈ opcodeTable)
    (hrw : r.holds w = true) (hqw : q.holds w = true) : r = q := by
  refine row_eq_of_patterns_agree r hr q hq ?_
  rw [← of_decide_eq_true hrw, ← of_decide_eq_true hqw, BitVec.and_assoc, BitVec.and_assoc,
    BitVec.and_comm r.mask]

/-- A row's mask covers the family, and the second key where its family has one. -/
theorem row_mask_cases : ∀ r ∈ opcodeTable,
    r.mask = 0xF000#16 ∧ fieldF r.pattern ∈ plainFamilies ∨
    r.mask = 0xF00F#16 ∧ fieldF r.pattern ∈ [0x0#4, 0x8#4, 0xE#4] ∨
    r.mask = 0xF0FF#16 ∧ fieldF r.pattern = 0xF#4 := by decide

theorem mnemonic_decodeWord_pattern : ∀ r ∈ opcodeTable, (decodeWord r.pattern).mnemonic = r.mnemonic := by decide

section
variable {w p : Word}

theorem mnemonic_congr_plain (hF : fieldF w = fieldF p) (hp : fieldF p ∈ plainFamilies) :
    (decodeWord w).mnemonic = (decodeWord p).mnemonic := by
  unfold decodeWord
  rw [hF]
  split
  case h_1 e | h_9 e | h_15 e => exact absurd (e ▸ hp) (by decide)
  case h_16 => simp_all [plainFamilies]
  all_goals rfl

theorem mnemonic_congr_nibble (hF : fieldF w = fieldF p) (hN : fieldN w = fieldN p)
    (hp : fieldF p ∈ [0x0#4, 0x8#4, 0xE#4]) : (decodeWord w).mnemonic = (decodeWord p).mnemonic := by
  simp only [List.mem_cons, List.not_mem_nil, or_false] at hp
  rcases hp with hp | hp | hp
  · rw [decodeWord_family0 hp, decodeWord_family0 (hF.trans hp), decodeFamily0, decodeFamily0, hN]
    split <;> rfl
  · rw [decodeWord_family8 hp, decodeWord_family8 (hF.trans hp), decodeFamily8, decodeFamily8, hN]
    split <;> rfl
  · rw [decodeWord_familyE hp, decodeWord_familyE (hF.trans hp), decodeFamilyE, decodeFamilyE, hN]
    split <;> rfl

theorem mnemonic_congr_byte (hF : fieldF w = fieldF p) (hNN : fieldNN w = fieldNN p) (hp : fieldF p = 0xF#4) :
    (decodeWord w).mnemonic = (decodeWord p).mnemonic := by
  rw [decodeWord_familyF hp, decodeWord_familyF (hF.trans hp), decodeFamilyF, decodeFamilyF, hNN]
  split <;> rfl

end

/-- A word that matches a row has the mnemonic of the row's pattern. -/
theorem mnemonic_of_row {w : Word} {r : OpcodeRow} (hr : r ∈ opcodeTable) (hw : r.holds w = true) :
    (decodeWord w).mnemonic = r.mnemonic := by
  rw [← mnemonic_decodeWord_pattern r hr]
  have hmatch : w &&& r.mask = r.pattern := of_decide_eq_true hw
  rcases row_mask_cases r hr with ⟨hm, hp⟩ | ⟨hm, hp⟩ | ⟨hm, hp⟩ <;> rw [hm] at hmatch
  · exact mnemonic_congr_plain (fieldF_of_mask hmatch) hp
  · obtain ⟨hF, hN⟩ := fields_of_mask_nibble hmatch
    exact mnemonic_congr_nibble hF hN hp
  · obtain ⟨hF, hNN⟩ := fields_of_mask_byte hmatch
    exact mnemonic_congr_byte hF hNN hp

/-- No row of the table holds for the word. -/
def NoRow (w : Word) : Prop := ∀ r ∈ opcodeTable, r.holds w = false

/-! Each family and key that selects an operation has a row, so a word without a row has no such key. -/

section
variable {w : Word} (hno : NoRow w)
include hno

theorem NoRow.and_mask_ne {mask pattern : Word}
    (hrow : ∃ r ∈ opcodeTable, r.mask = mask ∧ r.pattern = pattern) : w &&& mask ≠ pattern := by
  obtain ⟨r, hr, rfl, rfl⟩ := hrow
  exact of_decide_eq_false (hno r hr)

theorem NoRow.not_plain : fieldF w ∉ plainFamilies := fun hF =>
  hno.and_mask_ne ((by decide : ∀ f ∈ plainFamilies,
    ∃ r ∈ opcodeTable, r.mask = 0xF000#16 ∧ r.pattern = f ++ 0#12) _ hF) (and_family_mask w)

theorem NoRow.fieldN_not_mem {f : BitVec 4} {keys : List (BitVec 4)} (hF : fieldF w = f)
    (hrows : ∀ k ∈ keys, ∃ r ∈ opcodeTable, r.mask = 0xF00F#16 ∧ r.pattern = (f ++ 0#8 : BitVec 12) ++ k) :
    fieldN w ∉ keys := by
  subst hF
  exact fun hN => hno.and_mask_ne (hrows _ hN) (and_nibble_mask w)

theorem NoRow.fieldNN_not_mem (hF : fieldF w = 0xF#4) : fieldNN w ∉ keysF := by
  have hrows : ∀ b ∈ keysF, ∃ r ∈ opcodeTable,
      r.mask = 0xF0FF#16 ∧ r.pattern = (0xF#4 ++ 0#4 : BitVec 8) ++ b := by decide
  rw [← hF] at hrows
  exact fun hNN => hno.and_mask_ne (hrows _ hNN) (and_byte_mask w)

theorem NoRow.decodeWord_eq_nop : decodeWord w = .nop w := by
  refine Sys2Proof.decodeWord_eq_nop ?_
  rcases family_cases (fieldF w) with hF | hF | hF | hF | hF
  · exact absurd hF hno.not_plain
  · exact .inl ⟨hF, hno.fieldN_not_mem hF (by decide)⟩
  · exact .inr (.inl ⟨hF, hno.fieldN_not_mem hF (by decide)⟩)
  · exact .inr (.inr (.inl ⟨hF, hno.fieldN_not_mem hF (by decide)⟩))
  · exact .inr (.inr (.inr ⟨hF, hno.fieldNN_not_mem hF⟩))

end

/-- Settles O2: rows do not overlap, a row's mask covers every bit its mnemonic depends on, and a word without a row
misses its family's keys. -/
theorem decoderFollowsOpcodeTable : Obligations.DecoderFollowsOpcodeTable := by
  unfold Obligations.DecoderFollowsOpcodeTable
  exact ⟨fun _ _ _ => row_unique, fun _ _ => mnemonic_of_row, fun _ => NoRow.decodeWord_eq_nop⟩

/-! ### Fields (R61) -/

theorem toNat_firstByte (w : Word) : (firstByte w).toNat = (fieldF w).toNat * 16 + (fieldX w).val := by
  rw [toNat_fieldF, val_fieldX, firstByte, BitVec.extractLsb'_toNat, Nat.shiftRight_eq_div_pow]
  omega

theorem toNat_secondByte (w : Word) : (secondByte w).toNat = (fieldY w).val * 16 + (fieldN w).toNat := by
  rw [val_fieldY, toNat_fieldN, secondByte, BitVec.extractLsb'_toNat, Nat.shiftRight_zero]
  omega

theorem toNat_fieldNNN_eq_fields (w : Word) :
    (fieldNNN w).toNat = (fieldX w).val * 256 + (fieldY w).val * 16 + (fieldN w).toNat := by
  rw [toNat_fieldNNN, val_fieldX, val_fieldY, toNat_fieldN]
  omega

/-- Settles O3, from the value of each field; the bytes at `PC` are the two of the fetched word. -/
theorem opcodeFieldsAreTheirBits : Obligations.OpcodeFieldsAreTheirBits := by
  unfold Obligations.OpcodeFieldsAreTheirBits
  refine ⟨fun w => ⟨toNat_fieldF w, val_fieldX w, val_fieldY w, toNat_fieldN w, toNat_fieldNN w, toNat_fieldNNN w,
    toNat_fieldNNN_eq_fields w, toNat_secondByte w⟩, fun s => ⟨?_, ?_⟩⟩
  · rw [← toNat_firstByte, Machine.fetchedWord, Machine.firstByte_wordOfBytes]
  · rw [← toNat_secondByte, Machine.fetchedWord, Machine.secondByte_wordOfBytes]

/-! ### Ignored bits (R62) -/

theorem fieldF_append_ignored (f n : BitVec 4) (a : BitVec 8) :
    fieldF ((f ++ a : BitVec 12) ++ n : BitVec 16) = f := by
  apply BitVec.eq_of_toNat_eq
  rw [toNat_fieldF, toNat_append_bits, toNat_append_bits]
  omega

theorem fieldN_append_ignored (f n : BitVec 4) (a : BitVec 8) :
    fieldN ((f ++ a : BitVec 12) ++ n : BitVec 16) = n :=
  BitVec.extractLsb'_append_eq_right

/-- Settles O4, by family: the decoder looks only at fields that leave the ignored bits out. -/
theorem ignoredBitsSelectNothing : Obligations.IgnoredBitsSelectNothing := by
  unfold Obligations.IgnoredBitsSelectNothing
  intro a x y n
  refine ⟨?cls, ?ret, ?seReg, ?sneReg, ?shr, ?shl, ?skp, ?sknp⟩
  case cls | ret => simp only [decodeWord_family0 (fieldF_append_ignored ..), decodeFamily0, fieldN_append_ignored]
  case seReg | sneReg => simp only [decodeWord, fieldF_wordXYN, fieldX_wordXYN, fieldY_wordXYN]
  case shr | shl => simp only [decodeWord_family8 (fieldF_wordXYN ..), decodeFamily8, fieldN_wordXYN, fieldX_wordXYN]
  case skp | sknp => simp only [decodeWord_familyE (fieldF_wordXYN ..), decodeFamilyE, fieldN_wordXYN, fieldX_wordXYN]

/-! ### Printed words -/

/-- Settles O5, by running the decoder on the thirteen words. -/
theorem printedWordsDecode : Obligations.PrintedWordsDecode := by
  unfold Obligations.PrintedWordsDecode
  decide

end Sys2Proof
end

section
/-! PROOFS. The cycle (40_cycle.md): a step as the decoded instruction and a tick, the fetch above memory, the halted
core, the faulting cycle, and the cycle of an unmapped word. -/

namespace Sys2Proof

/-! ### The unmapped words (R70) -/

/-- A word that decodes to a no-op matches no row of the table: no row has that mnemonic. -/
theorem NoRow.of_decodeWord_eq_nop {w v : Word} (h : decodeWord w = .nop v) : NoRow w := by
  refine fun r hr => Bool.eq_false_iff.2 fun hw => ?_
  have hnop : r.mnemonic = (Instr.nop v).mnemonic := h ▸ (mnemonic_of_row hr hw).symm
  exact (by decide : ∀ r ∈ opcodeTable, r.mnemonic ≠ "NOP") r hr hnop

/-- A word without a row has, in a family with a second key, a key that R70 lists. -/
theorem NoRow.unmapped {w : Word} (hno : NoRow w) : unmapped w = true := by
  unfold Sys2Proof.unmapped
  rw [← fieldF]
  rcases family_cases (fieldF w) with hF | hF | hF | hF | hF
  · exact absurd hF hno.not_plain
  · rw [hF]
    exact decide_eq_true ((by decide : ∀ k ∉ keys0, k ∈ _) _ (hno.fieldN_not_mem hF (by decide)))
  · rw [hF]
    exact decide_eq_true ((by decide : ∀ k ∉ keys8, k ∈ _) _ (hno.fieldN_not_mem hF (by decide)))
  · rw [hF]
    exact decide_eq_true ((by decide : ∀ k ∉ keysE, k ∈ _) _ (hno.fieldN_not_mem hF (by decide)))
  · rw [hF]
    exact decide_eq_true (hno.fieldNN_not_mem hF)

theorem unmapped_iff_decodeWord_eq_nop (w : Word) : unmapped w = true ↔ decodeWord w = .nop w :=
  ⟨decodeWord_of_unmapped, fun h => (NoRow.of_decodeWord_eq_nop h).unmapped⟩

end Sys2Proof

namespace Sys2Proof.Machine

/-! ### What a faulting instruction does -/

/-- The outcome is a fault raised on `s`, or every next state has the latch of `s`. -/
def RaisesOrKeepsLatch (s : State) (r : Result) : Prop :=
  (∃ c info, r = raise c info s) ∨ ∀ t, r = .next t → t.fault = s.fault

section
variable {s : State}

theorem RaisesOrKeepsLatch.raise (c : Cause) (info : Nat) : RaisesOrKeepsLatch s (raise c info s) :=
  .inl ⟨c, info, rfl⟩

theorem RaisesOrKeepsLatch.next {t : State} (h : t.fault = s.fault) : RaisesOrKeepsLatch s (.next t) := by
  refine .inr fun u hu => ?_
  cases hu
  exact h

theorem RaisesOrKeepsLatch.stop (f : Fault) : RaisesOrKeepsLatch s (.fault f) := .inr nofun

theorem RaisesOrKeepsLatch.guardRange {base n : Nat} {r : Result} (h : RaisesOrKeepsLatch s r) :
    RaisesOrKeepsLatch s (guardRange base n s r) := by
  rcases guardRange_cases base n s r with ⟨-, -, e⟩ | ⟨-, e⟩ <;> rw [e]
  · exact .raise _ _
  · exact h

theorem RaisesOrKeepsLatch.skipOnKey (x : Reg) (down : Bool) : RaisesOrKeepsLatch s (skipOnKey x down s) := by
  rcases skipOnKey_cases x down s with ⟨-, e⟩ | ⟨-, -, -, e⟩ | ⟨-, -, -, e⟩ <;> rw [e]
  · exact .raise _ _
  · exact .next rfl
  · exact .next rfl

theorem RaisesOrKeepsLatch.ret : RaisesOrKeepsLatch s (execRet s) := by
  rcases execRet_cases s with ⟨-, e⟩ | ⟨h, -, -, e⟩ | ⟨-, e⟩ <;> rw [e]
  · exact .raise _ _
  · exact .next (popAndJump_fault s h)
  · exact .stop _

theorem RaisesOrKeepsLatch.call (nnn : BitVec 12) : RaisesOrKeepsLatch s (execCall nnn s) := by
  rcases execCall_cases nnn s with ⟨-, e⟩ | ⟨h, e⟩ | ⟨-, e⟩ <;> rw [e]
  · exact .raise _ _
  · exact .next (pushAndJump_fault s h _)
  · exact .stop _

end

/-- An instruction latches a fault only by raising it, with no other effect (R86, R163); one that can
raise none keeps the latch by its frame (R162). -/
theorem exec_raisesOrKeepsLatch (i : Instr) (s : State) : RaisesOrKeepsLatch s (exec i s) := by
  cases hm : mayFault i with
  | false => exact .inr fun t ht => (exec_frame ht).fault hm
  | true =>
    cases i with
    | ret => exact .ret
    | call nnn => exact .call nnn
    | skp x | sknp x => exact .skipOnKey x _
    | ldB x | ldMemVx x | ldVxMem x | drw x y n => exact .guardRange (.next rfl)
    | _ => cases hm

theorem exec_fault_eq_takeFault {i : Instr} {s t : State} (hf : s.fault = none) (h : exec i s = .next t)
    (ht : t.fault ≠ none) : ∃ c info, t = takeFault s.pc0 c info s := by
  rcases exec_raisesOrKeepsLatch i s with ⟨c, info, e⟩ | hkeep
  · cases h.symm.trans e
    exact ⟨c, info, rfl⟩
  · exact absurd ((hkeep t h).trans hf) ht

/-- A fault raised after the advance puts `PC` back where the cycle found it (R82, R86). -/
theorem takeFault_advance (c : Cause) (info : Nat) (s : State) :
    takeFault s.advance.pc0 c info s.advance = takeFault s.pc c info s := by
  have hpc : s.advance.pc0 = s.pc := BitVec.add_sub_cancel ..
  rw [hpc]
  rfl

/-- Settles O10, by the cases of the step: a failed fetch and a raised fault both take the fault on `s` itself, and
neither a halted nor a completed cycle is a case. -/
theorem faultingCycleOnlyLatches : Obligations.FaultingCycleOnlyLatches := by
  unfold Obligations.FaultingCycleOnlyLatches
  intro s t hf hst ht
  rcases step_cases hst with ⟨hf', -⟩ | ⟨-, -, rfl⟩ | ⟨-, -, u, hu, ⟨-, rfl⟩ | ⟨hu', rfl⟩⟩
  · exact absurd hf hf'
  · exact ⟨_, _, rfl⟩
  · obtain ⟨c, info, rfl⟩ := exec_fault_eq_takeFault (s.advance_fault.trans hf) hu ht
    exact ⟨c, info, takeFault_advance c info s⟩
  · exact absurd hu' ht

/-! ### The halted core -/

theorem hostKeyWrite_pressed_same (k : Fin 16) (b : Bool) (s : State) : (hostKeyWrite k b s).pressed k = b :=
  Vector.getElem_set_self _

/-- A LOAD, accepted or not, leaves the latch alone (R52, R165). -/
@[simp] theorem afterLoad_fault (bytes : List Byte) (s : State) : (afterLoad bytes s).fault = s.fault := by
  rcases afterLoad_cases bytes s with ⟨-, e⟩ | ⟨-, e⟩ <;> rw [e]

theorem read_afterLoad {bytes : List Byte} (s : State) (hlen : bytes.length ≤ 3584) {k : Nat}
    (hk : k < bytes.length) : Memory.read (afterLoad bytes s).mem (0x200 + k) = bytes[k] := by
  rw [afterLoad, hostLoad_of_le s hlen]
  exact Memory.read_writeBytes_inside s.mem 0x200 bytes k hk

/-- Settles O9, operation by operation. -/
theorem latchedFaultHaltsCore : Obligations.LatchedFaultHaltsCore := by
  unfold Obligations.LatchedFaultHaltsCore
  intro s r hr
  refine ⟨step_halted (by simp [hr]), fun bytes => ⟨?_, fun hlen k hk => read_afterLoad s hlen hk⟩,
    fun k b => ⟨hr, hostKeyWrite_pressed_same k b s⟩, rfl⟩
  rw [afterLoad_fault, hr]

/-! ### The cycle around an instruction -/

theorem tick_eq (s : State) :
    tick s = { s with dt := BitVec.ofNat 8 (s.dt.toNat - 1), st := BitVec.ofNat 8 (s.st.toNat - 1) } := by
  rw [tick, countDown_eq, countDown_eq]

theorem finishCycle_next_running {t : State} (h : t.fault = none) : finishCycle (.next t) = .next (tick t) := by
  rw [finishCycle, h]
  rfl

theorem finishCycle_next_faulted {t : State} (h : t.fault ≠ none) : finishCycle (.next t) = .next t := by
  rw [finishCycle, if_pos (Option.isSome_iff_ne_none.2 h)]

/-- Settles O6, by the outcome of the instruction. -/
theorem stepRunsDecodedInstruction : Obligations.StepRunsDecodedInstruction := by
  unfold Obligations.StepRunsDecodedInstruction
  intro s i hf hp hdec
  have hi : decodeWord (fetchedWord s) = i := congrArg Prod.fst (Except.ok.inj hdec)
  rw [step_running hf hp, hi, State.advance]
  cases exec i { s with pc := s.pc + 2#16 } with
  | next t =>
    by_cases ht : t.fault = none
    · simp only [finishCycle_next_running ht, tick_eq, if_pos ht]
    · simp only [finishCycle_next_faulted ht, if_neg ht]
  | fault f => rfl
  | refused r => rfl

/-- Settles O12: an unmapped word is one without a row of the table, and its cycle is the no-op and the tick. -/
theorem unmappedWordIsNop : Obligations.UnmappedWordIsNop := by
  unfold Obligations.UnmappedWordIsNop
  refine ⟨unmapped_iff_decodeWord_eq_nop, fun _ _ => rfl, fun s hf hp hw => ?_⟩
  have hexec : exec (.nop (fetchedWord s)) s.advance = .next s.advance := rfl
  rw [step_running hf hp, decodeWord_of_unmapped hw, hexec,
    finishCycle_next_running (s.advance_fault.trans hf), tick_eq]
  rfl

/-! ### The fetch above memory -/

theorem fetchFault_eq (s : State) :
    fetchFault s = { s with fault := some { cause := .addressOutOfRange, pc := s.pc, info := max s.pc.toNat 4096 } } :=
  rfl

/-- Settles O8: the failed fetch is the whole step, and its first offending address is `max PC 4096` (R43). -/
theorem fetchAboveMemoryFaults : Obligations.FetchAboveMemoryFaults := by
  unfold Obligations.FetchAboveMemoryFaults
  refine fun s hf => ⟨fun hp => ?_, fun hp => ?_⟩
  · rw [step_fetchFault hf (by omega), fetchFault_eq, Nat.max_eq_right (by omega)]
  · rw [step_fetchFault hf (by omega), fetchFault_eq, Nat.max_eq_left hp]

end Sys2Proof.Machine
end

section
/-! PROOFS. Control flow (41_control_flow.md): CLS, the jumps, and the call stack as CALL and RET use it. -/

namespace Sys2Proof.Machine

/-! ### The words that select an operation (R64, R65) -/

theorem selects_of_family {p : Word} {f : Word → Instr}
    (h : ∀ w, fieldF w = p.extractLsb' 12 4 → decodeWord w = f w) : Selects 0xF000#16 p f :=
  fun w hw => h w (fieldF_of_mask hw)

theorem selects_of_nibble {p : Word} {f : Word → Instr}
    (h : ∀ w, fieldF w = p.extractLsb' 12 4 → fieldN w = p.extractLsb' 0 4 → decodeWord w = f w) :
    Selects 0xF00F#16 p f := by
  intro w hw
  obtain ⟨hF, hN⟩ := fields_of_mask_nibble hw
  exact h w hF hN

theorem selects_cls : Selects 0xF00F#16 0x0000#16 (fun _ => .cls) :=
  selects_of_nibble fun w (hF : fieldF w = 0x0#4) (hN : fieldN w = 0x0#4) => by
    simp only [decodeWord_family0 hF, decodeFamily0, hN]

theorem selects_ret : Selects 0xF00F#16 0x000E#16 (fun _ => .ret) :=
  selects_of_nibble fun w (hF : fieldF w = 0x0#4) (hN : fieldN w = 0xE#4) => by
    simp only [decodeWord_family0 hF, decodeFamily0, hN]

theorem selects_jp : Selects 0xF000#16 0x1000#16 (fun w => .jp (fieldNNN w)) :=
  selects_of_family fun w (hF : fieldF w = 0x1#4) => by simp only [decodeWord, hF]

theorem selects_call : Selects 0xF000#16 0x2000#16 (fun w => .call (fieldNNN w)) :=
  selects_of_family fun w (hF : fieldF w = 0x2#4) => by simp only [decodeWord, hF]

theorem selects_jpV0 : Selects 0xF000#16 0xB000#16 (fun w => .jpV0 (fieldNNN w)) :=
  selects_of_family fun w (hF : fieldF w = 0xB#4) => by simp only [decodeWord, hF]

/-! ### CLS and the jumps -/

/-- Settles O13: every pixel of the blank display is unlit. -/
theorem clsClearsDisplay : Obligations.ClsClearsDisplay := by
  unfold Obligations.ClsClearsDisplay
  exact ⟨selects_cls, fun _ => ⟨_, rfl, rfl, fun _ => rfl, pixel_blankDisplay⟩⟩

/-- Settles O15, by the value of the extended target. -/
theorem jpInstallsTarget : Obligations.JpInstallsTarget := by
  unfold Obligations.JpInstallsTarget
  exact ⟨selects_jp, fun nnn _ => ⟨_, rfl, rfl, fun _ => rfl, toNat_zextAddr nnn⟩⟩

/-- Settles O17: the sum of target and V0 does not overflow 16 bits. -/
theorem jpV0AddsOffset : Obligations.JpV0AddsOffset := by
  unfold Obligations.JpV0AddsOffset
  exact ⟨selects_jpV0, fun nnn s => ⟨_, rfl, rfl, fun _ => rfl, toNat_offsetTarget nnn s⟩⟩

/-! ### RET and CALL by the stack pointer -/

section
variable {s : State}

theorem exec_ret_of_empty (h : s.sp.toNat = 0) : exec .ret s = raise .stackUnderflow 0 s := by
  rcases execRet_cases s with ⟨-, e⟩ | ⟨-, h1, -⟩ | ⟨h16, -⟩
  · exact e
  · omega
  · omega

theorem exec_ret_of_pos (h : 1 ≤ s.sp.toNat) (h16 : s.sp.toNat ≤ 16) :
    exec .ret s = .next (popAndJump s (by omega)) := by
  rcases execRet_cases s with ⟨h0, -⟩ | ⟨_, -, -, e⟩ | ⟨hlt, -⟩
  · rw [h0] at h
    cases h
  · exact e
  · omega

theorem exec_call_of_full (nnn : BitVec 12) (h : s.sp.toNat = 16) :
    exec (.call nnn) s = raise .stackOverflow nnn.toNat s := by
  rcases execCall_cases nnn s with ⟨-, e⟩ | ⟨hlt, -⟩ | ⟨hlt, -⟩
  · exact e
  · omega
  · omega

theorem exec_call_of_room (nnn : BitVec 12) (h : s.sp.toNat < 16) :
    exec (.call nnn) s = .next (pushAndJump s h (zextAddr nnn)) := by
  rcases execCall_cases nnn s with ⟨h16, -⟩ | ⟨_, e⟩ | ⟨hlt, -⟩
  · rw [h16] at h
    exact absurd h (by decide)
  · exact e
  · omega

/-! ### Push and pop -/

theorem toNat_popAndJump_sp (h : s.sp.toNat - 1 < 16) (h1 : 1 ≤ s.sp.toNat) :
    (popAndJump s h).sp.toNat = s.sp.toNat - 1 := by
  rw [popAndJump_sp]
  bv_omega

theorem toNat_pushAndJump_sp (h : s.sp.toNat < 16) (target : Word) :
    (pushAndJump s h target).sp.toNat = s.sp.toNat + 1 := by
  rw [pushAndJump_sp]
  bv_omega

theorem getElem?_pushAndJump_same (h : s.sp.toNat < 16) (target : Word) :
    (pushAndJump s h target).stack[s.sp.toNat]? = some s.pc :=
  Vector.getElem?_set_self h

theorem getElem?_pushAndJump_other (h : s.sp.toNat < 16) (target : Word) {k : Nat} (hk : k ≠ s.sp.toNat) :
    (pushAndJump s h target).stack[k]? = s.stack[k]? :=
  Vector.getElem?_set_ne h hk.symm

/-- A pop right after a push undoes it, the pushed entry aside, whatever `PC` is by then. -/
theorem popAndJump_pushAndJump (h : s.sp.toNat < 16) (target p : Word)
    (h' : ({ pushAndJump s h target with pc := p } : State).sp.toNat - 1 < 16) :
    popAndJump { pushAndJump s h target with pc := p } h' = { s with stack := (pushAndJump s h target).stack } := by
  have hsp : s.sp + 1#8 - 1#8 = s.sp := BitVec.add_sub_cancel ..
  have hidx : (s.sp + 1#8).toNat - 1 = s.sp.toNat := by bv_omega
  simp only [popAndJump, pushAndJump, hsp, hidx, Vector.getElem_set_self]

end

/-- Settles O14, by the stack pointer: a pop of the entry below it, or the fault. -/
theorem retPopsReturnAddress : Obligations.RetPopsReturnAddress := by
  unfold Obligations.RetPopsReturnAddress
  refine ⟨selects_ret, fun s h1 h16 => ?_, fun s h => ⟨_, exec_ret_of_empty h, rfl⟩⟩
  have hidx : s.sp.toNat - 1 < 16 := by omega
  exact ⟨_, exec_ret_of_pos h1 h16, rfl, fun _ => rfl, toNat_popAndJump_sp hidx h1, Vector.getElem?_eq_getElem hidx⟩

/-- Settles O16, by the stack pointer: a push of the advanced `PC`, or the fault. -/
theorem callPushesReturnAddress : Obligations.CallPushesReturnAddress := by
  unfold Obligations.CallPushesReturnAddress
  refine ⟨selects_call, fun nnn s h => ?_, fun nnn s h => ⟨_, exec_call_of_full nnn h, rfl⟩⟩
  have hlt : s.sp.toNat < 16 := by omega
  exact ⟨_, exec_call_of_room nnn hlt, rfl, fun _ => rfl, toNat_zextAddr nnn, toNat_pushAndJump_sp hlt _,
    getElem?_pushAndJump_same hlt _, fun _ => getElem?_pushAndJump_other hlt _⟩

/-- Settles O18: RET after CALL is a pop after a push. -/
theorem callThenRetReturns : Obligations.CallThenRetReturns := by
  unfold Obligations.CallThenRetReturns
  intro nnn s p h
  have hlt : s.sp.toNat < 16 := by omega
  have hsp := toNat_pushAndJump_sp hlt (zextAddr nnn)
  refine ⟨_, _, exec_call_of_room nnn hlt, exec_ret_of_pos ?_ ?_, popAndJump_pushAndJump hlt _ p _, ?_⟩
  · exact hsp ▸ Nat.le_add_left ..
  · exact hsp ▸ hlt
  · exact fun _ => getElem?_pushAndJump_other hlt (zextAddr nnn)

end Sys2Proof.Machine
end

section
/-! PROOFS. The conditional skips (42_conditional_skip.md): the comparing skips and the skips on a key. -/

namespace Sys2Proof.Machine

/-! ### The words that select a skip (R67, R69) -/

theorem selects_seByte : Selects 0xF000#16 0x3000#16 (fun w => .seByte (fieldX w) (fieldNN w)) :=
  selects_of_family fun w (hF : fieldF w = 0x3#4) => by simp only [decodeWord, hF]

theorem selects_sneByte : Selects 0xF000#16 0x4000#16 (fun w => .sneByte (fieldX w) (fieldNN w)) :=
  selects_of_family fun w (hF : fieldF w = 0x4#4) => by simp only [decodeWord, hF]

theorem selects_seReg : Selects 0xF000#16 0x5000#16 (fun w => .seReg (fieldX w) (fieldY w)) :=
  selects_of_family fun w (hF : fieldF w = 0x5#4) => by simp only [decodeWord, hF]

theorem selects_sneReg : Selects 0xF000#16 0x9000#16 (fun w => .sneReg (fieldX w) (fieldY w)) :=
  selects_of_family fun w (hF : fieldF w = 0x9#4) => by simp only [decodeWord, hF]

theorem selects_skp : Selects 0xF00F#16 0xE00E#16 (fun w => .skp (fieldX w)) :=
  selects_of_nibble fun w (hF : fieldF w = 0xE#4) (hN : fieldN w = 0xE#4) => by
    simp only [decodeWord_familyE hF, decodeFamilyE, hN]

theorem selects_sknp : Selects 0xF00F#16 0xE001#16 (fun w => .sknp (fieldX w)) :=
  selects_of_nibble fun w (hF : fieldF w = 0xE#4) (hN : fieldN w = 0x1#4) => by
    simp only [decodeWord_familyE hF, decodeFamilyE, hN]

/-! ### The common skip rule (R106) -/

/-- The outcome is a next state that differs from `s` in `PC` at most: 2 further on under `taken`, the same under
`passed`. -/
def SkipOutcome (s : State) (taken passed : Prop) (r : Result) : Prop :=
  ∃ t, r = .next t ∧ PcOnly s t ∧ SameMemory s t ∧ (taken → t.pc = s.pc + 2#16) ∧ (passed → t.pc = s.pc)

section
variable {s : State}

/-- A skip does what its condition says, whichever propositions the condition decides. -/
theorem skipOutcome_skipIf {c : Bool} {taken passed : Prop} (htaken : taken → c = true) (hpassed : passed → c = false) :
    SkipOutcome s taken passed (skipIf c s) := by
  rcases skipIf_cases c s with ⟨hc, e⟩ | ⟨hc, e⟩
  · have hnot : ¬ passed := fun h => Bool.noConfusion (hc.symm.trans (hpassed h))
    exact ⟨_, e, rfl, fun _ => rfl, fun _ => rfl, fun h => absurd h hnot⟩
  · have hnot : ¬ taken := fun h => Bool.noConfusion (hc.symm.trans (htaken h))
    exact ⟨_, e, rfl, fun _ => rfl, fun h => absurd h hnot, fun _ => rfl⟩

/-- A skip on a comparison that has to hold (R100, R102). -/
theorem skipOutcome_skipIf_eq (a b : Byte) : SkipOutcome s (a = b) (a ≠ b) (skipIf (decide (a = b)) s) :=
  skipOutcome_skipIf decide_eq_true decide_eq_false

/-- A skip on a comparison that has to fail (R101, R103). -/
theorem skipOutcome_skipIf_ne (a b : Byte) : SkipOutcome s (a ≠ b) (a = b) (skipIf (decide (a ≠ b)) s) :=
  skipOutcome_skipIf decide_eq_true fun h => decide_eq_false (not_not_intro h)

/-! ### The key that `V[x]` names (R104, R105; the spec's decision D5) -/

theorem skipOnKey_of_key {x : Reg} {k : Fin 16} (down : Bool) (hk : (s.reg x).toNat = k.val) :
    skipOnKey x down s = skipIf (s.pressed k == down) s := by
  rw [skipOnKey, keyIndex_eq_some.2 hk]

theorem skipOnKey_of_no_key {x : Reg} (down : Bool) (h : 15 < (s.reg x).toNat) :
    skipOnKey x down s = raise .keyIndexOutOfRange (s.reg x).toNat s := by
  rw [skipOnKey, keyIndex_eq_none.2 h]

theorem skipOutcome_skipOnKey {x : Reg} {k : Fin 16} (down : Bool) (hk : (s.reg x).toNat = k.val) :
    SkipOutcome s (s.pressed k = down) (s.pressed k = !down) (skipOnKey x down s) := by
  rw [skipOnKey_of_key down hk]
  refine skipOutcome_skipIf beq_iff_eq.2 fun h => ?_
  rw [h, Bool.not_beq_self]

end

/-- Settles O19: each comparing skip is `skipIf` on its comparison. -/
theorem comparingSkips : Obligations.ComparingSkips := by
  unfold Obligations.ComparingSkips
  refine ⟨⟨selects_seByte, selects_sneByte, selects_seReg, selects_sneReg⟩, ?seByte, ?sneByte, ?seReg, ?sneReg⟩
  case seByte => exact fun x nn s => skipOutcome_skipIf_eq (s.reg x) nn
  case sneByte => exact fun x nn s => skipOutcome_skipIf_ne (s.reg x) nn
  case seReg => exact fun x y s => skipOutcome_skipIf_eq (s.reg x) (s.reg y)
  case sneReg => exact fun x y s => skipOutcome_skipIf_ne (s.reg x) (s.reg y)

/-- Settles O20, by whether `V[x]` names a key: a skip on that key's state, or the fault. -/
theorem keySkips : Obligations.KeySkips := by
  unfold Obligations.KeySkips
  refine ⟨⟨selects_skp, selects_sknp⟩, fun x s k hk => ?_, fun x s h => ?_⟩
  · exact ⟨skipOutcome_skipOnKey true hk, skipOutcome_skipOnKey false hk⟩
  · exact ⟨⟨_, skipOnKey_of_no_key true h, rfl⟩, ⟨_, skipOnKey_of_no_key false h, rfl⟩⟩

end Sys2Proof.Machine
end

section
/-! PROOFS. Register loads and arithmetic (43_register_alu.md): the instructions that write a result into `V[X]` alone,
and those that write a flag into VF after it. -/

namespace Sys2Proof.Machine

/-! ### The words that select a register operation (R66, R69) -/

theorem selects_ldByte : Selects 0xF000#16 0x6000#16 (fun w => .ldByte (fieldX w) (fieldNN w)) :=
  selects_of_family fun w (hF : fieldF w = 0x6#4) => by simp only [decodeWord, hF]

theorem selects_addByte : Selects 0xF000#16 0x7000#16 (fun w => .addByte (fieldX w) (fieldNN w)) :=
  selects_of_family fun w (hF : fieldF w = 0x7#4) => by simp only [decodeWord, hF]

/-- In family 8 the key nibble alone decides (R66). -/
theorem selects_of_key8 {p : Word} {f : Word → Instr} (hp : p.extractLsb' 12 4 = 0x8#4)
    (h : ∀ w, fieldN w = p.extractLsb' 0 4 → decodeFamily8 w = f w) : Selects 0xF00F#16 p f :=
  selects_of_nibble fun w hF hN => (decodeWord_family8 (hF.trans hp)).trans (h w hN)

theorem selects_ldReg : Selects 0xF00F#16 0x8000#16 (fun w => .ldReg (fieldX w) (fieldY w)) :=
  selects_of_key8 rfl fun w (hN : fieldN w = 0x0#4) => by simp only [decodeFamily8, hN]

theorem selects_orReg : Selects 0xF00F#16 0x8001#16 (fun w => .orReg (fieldX w) (fieldY w)) :=
  selects_of_key8 rfl fun w (hN : fieldN w = 0x1#4) => by simp only [decodeFamily8, hN]

theorem selects_andReg : Selects 0xF00F#16 0x8002#16 (fun w => .andReg (fieldX w) (fieldY w)) :=
  selects_of_key8 rfl fun w (hN : fieldN w = 0x2#4) => by simp only [decodeFamily8, hN]

theorem selects_xorReg : Selects 0xF00F#16 0x8003#16 (fun w => .xorReg (fieldX w) (fieldY w)) :=
  selects_of_key8 rfl fun w (hN : fieldN w = 0x3#4) => by simp only [decodeFamily8, hN]

theorem selects_addReg : Selects 0xF00F#16 0x8004#16 (fun w => .addReg (fieldX w) (fieldY w)) :=
  selects_of_key8 rfl fun w (hN : fieldN w = 0x4#4) => by simp only [decodeFamily8, hN]

theorem selects_sub : Selects 0xF00F#16 0x8005#16 (fun w => .sub (fieldX w) (fieldY w)) :=
  selects_of_key8 rfl fun w (hN : fieldN w = 0x5#4) => by simp only [decodeFamily8, hN]

theorem selects_shr : Selects 0xF00F#16 0x8006#16 (fun w => .shr (fieldX w)) :=
  selects_of_key8 rfl fun w (hN : fieldN w = 0x6#4) => by simp only [decodeFamily8, hN]

theorem selects_subn : Selects 0xF00F#16 0x8007#16 (fun w => .subn (fieldX w) (fieldY w)) :=
  selects_of_key8 rfl fun w (hN : fieldN w = 0x7#4) => by simp only [decodeFamily8, hN]

theorem selects_shl : Selects 0xF00F#16 0x800E#16 (fun w => .shl (fieldX w)) :=
  selects_of_key8 rfl fun w (hN : fieldN w = 0xE#4) => by simp only [decodeFamily8, hN]

/-! ### A result alone: VF is no special register -/

section
variable (s : State) (x : Reg) (b : Byte)

theorem keepsRegsBut_setReg : KeepsRegsBut [x] s (s.setReg x b) :=
  fun _ hk => s.reg_setReg_other b (List.ne_of_not_mem_cons hk)

/-- The outcome of a result written to `V[X]` alone; `value` is the reading of a byte the rule states it in. -/
theorem next_setReg {α : Type} (value : Byte → α) {r : α} (hb : value b = r) :
    ∃ t, (.next (s.setReg x b) : Result) = .next t ∧ RegsOnly s t ∧ SameMemory s t ∧
      value (t.reg x) = r ∧ KeepsRegsBut [x] s t :=
  ⟨_, rfl, rfl, fun _ => rfl, (congrArg value (s.reg_setReg_same x b)).trans hb, keepsRegsBut_setReg s x b⟩

/-- The outcome of a result whose bits the rule states one by one. -/
theorem next_setReg_bits {bit : Nat → Bool} (hb : ∀ j, b.getLsbD j = bit j) :
    ∃ t, (.next (s.setReg x b) : Result) = .next t ∧ RegsOnly s t ∧ SameMemory s t ∧ KeepsRegsBut [x] s t ∧
      ∀ j, (t.reg x).getLsbD j = bit j := by
  obtain ⟨t, ht, hregs, hmem, rfl, hkeep⟩ := next_setReg s x b id rfl
  exact ⟨t, ht, hregs, hmem, hkeep, hb⟩

end

/-- Settles O21: the loads write the immediate, or the other register's value, into `V[X]` alone. -/
theorem loadsSetRegister : Obligations.LoadsSetRegister := by
  unfold Obligations.LoadsSetRegister
  exact ⟨⟨selects_ldByte, selects_ldReg⟩, fun x nn s => next_setReg s x nn id rfl,
    fun x y s => next_setReg s x (s.reg y) id rfl⟩

/-- Settles O22: the sum of two bytes, written into `V[X]` alone. -/
theorem addByteWrapsWithoutFlag : Obligations.AddByteWrapsWithoutFlag := by
  unfold Obligations.AddByteWrapsWithoutFlag
  exact ⟨selects_addByte, fun x nn s => next_setReg s x _ BitVec.toNat (BitVec.toNat_add ..)⟩

/-- Settles O23, operation by operation: the bits of its result, written into `V[X]` alone. -/
theorem bitwiseOperations : Obligations.BitwiseOperations := by
  unfold Obligations.BitwiseOperations
  refine ⟨⟨selects_orReg, selects_andReg, selects_xorReg⟩, fun x y s => ⟨?or, ?and, ?xor⟩⟩
  case or => exact next_setReg_bits s x _ fun _ => BitVec.getLsbD_or
  case and => exact next_setReg_bits s x _ fun _ => BitVec.getLsbD_and
  case xor => exact next_setReg_bits s x _ fun _ => BitVec.getLsbD_xor

/-! ### A result, then the flag: VF ends as the flag (R110) -/

section
variable (s : State) (x : Reg) (b : Byte) (f : Bool)

theorem State.reg_setRegFlag_vf : (s.setRegFlag x b f).reg vf = flagByte f := by
  rw [State.reg_setRegFlag, if_pos rfl]

theorem State.reg_setRegFlag_result (hx : x ≠ vf) : (s.setRegFlag x b f).reg x = b := by
  rw [State.reg_setRegFlag, if_neg hx, if_pos rfl]

theorem keepsRegsBut_setRegFlag : KeepsRegsBut [x, vf] s (s.setRegFlag x b f) := by
  intro k hk
  have hx : k ≠ x := List.ne_of_not_mem_cons hk
  have hvf : k ≠ vf := List.ne_of_not_mem_cons (List.not_mem_of_not_mem_cons hk)
  rw [State.reg_setRegFlag, if_neg hvf, if_neg hx]

/-- The outcome of a result with a flag; `value` is the reading of a byte the rule states the result in. -/
theorem next_setRegFlag {α : Type} (value : Byte → α) {r : α} {n : Nat} (hb : value b = r)
    (hf : (flagByte f).toNat = n) :
    ∃ t, (.next (s.setRegFlag x b f) : Result) = .next t ∧ RegsOnly s t ∧ SameMemory s t ∧
      (x ≠ vf → value (t.reg x) = r) ∧ (t.reg vf).toNat = n ∧ KeepsRegsBut [x, vf] s t := by
  refine ⟨_, rfl, rfl, fun _ => rfl, fun hx => ?_, ?_, keepsRegsBut_setRegFlag s x b f⟩
  · rw [State.reg_setRegFlag_result s x b f hx, hb]
  · rw [State.reg_setRegFlag_vf, hf]

end

/-! ### What the results and flags are worth -/

section
variable (a b : Byte)

theorem toNat_flagByte_carry : (flagByte (carry a b)).toNat = if 255 < a.toNat + b.toNat then 1 else 0 := by
  simp only [toNat_flagByte, carry, decide_eq_true_eq]

theorem toNat_flagByte_greater : (flagByte (greater a b)).toNat = if b.toNat < a.toNat then 1 else 0 := by
  simp only [toNat_flagByte, greater, decide_eq_true_eq]

theorem toNat_flagByte_getLsbD (i : Nat) : (flagByte (a.getLsbD i)).toNat = a.toNat / 2 ^ i % 2 := by
  rw [toNat_flagByte, ← BitVec.testBit_toNat, ← Nat.toNat_testBit]
  cases a.toNat.testBit i <;> rfl

theorem toNat_flagByte_lowBit : (flagByte (lowBit a)).toNat = a.toNat % 2 := by
  rw [lowBit, toNat_flagByte_getLsbD, Nat.pow_zero, Nat.div_one]

/-- The high bit is the whole quotient: a byte has no bit above it. -/
theorem toNat_flagByte_highBit : (flagByte (highBit a)).toNat = a.toNat / 128 := by
  rw [highBit, toNat_flagByte_getLsbD]
  omega

/-- The difference of two bytes is the exact one modulo 256, also where that is negative. -/
theorem toNat_sub_eq_emod : ((a - b).toNat : Int) = ((a.toNat : Int) - b.toNat) % 256 := by
  rw [BitVec.toNat_sub]
  omega

theorem toNat_shiftLeft_one : (a <<< 1).toNat = a.toNat * 2 % 256 := by
  rw [BitVec.toNat_shiftLeft, Nat.shiftLeft_eq]

end

/-- SUB and SUBN are one rule with the operands swapped: minuend `a`, subtrahend `b` (R118, R120). -/
theorem next_setRegFlag_sub (s : State) (x : Reg) (a b : Byte) :
    ∃ t, (.next (s.setRegFlag x (a - b) (greater a b)) : Result) = .next t ∧ RegsOnly s t ∧ SameMemory s t ∧
      (x ≠ vf → ((t.reg x).toNat : Int) = ((a.toNat : Int) - b.toNat) % 256) ∧
      (t.reg vf).toNat = (if b.toNat < a.toNat then 1 else 0) ∧ KeepsRegsBut [x, vf] s t :=
  next_setRegFlag s x _ _ (fun c => (c.toNat : Int)) (toNat_sub_eq_emod a b) (toNat_flagByte_greater a b)

/-- Settles O24: the sum of two bytes and its carry, both from the old operands. -/
theorem addSetsCarry : Obligations.AddSetsCarry := by
  unfold Obligations.AddSetsCarry
  exact ⟨selects_addReg, fun x y s =>
    next_setRegFlag s x _ _ BitVec.toNat (BitVec.toNat_add ..) (toNat_flagByte_carry (s.reg x) (s.reg y))⟩

/-- Settles O25: a subtraction with minuend `V[X]`. -/
theorem subSetsNotBorrow : Obligations.SubSetsNotBorrow := by
  unfold Obligations.SubSetsNotBorrow
  exact ⟨selects_sub, fun x y s => next_setRegFlag_sub s x (s.reg x) (s.reg y)⟩

/-- Settles O26: a subtraction with minuend `V[Y]`. -/
theorem subnSetsNotBorrow : Obligations.SubnSetsNotBorrow := by
  unfold Obligations.SubnSetsNotBorrow
  exact ⟨selects_subn, fun x y s => next_setRegFlag_sub s x (s.reg y) (s.reg x)⟩

/-- Settles O27: the shifted byte and the bit shifted out, both from the old `V[X]`. -/
theorem shiftsDeliverBitOut : Obligations.ShiftsDeliverBitOut := by
  unfold Obligations.ShiftsDeliverBitOut
  refine ⟨⟨selects_shr, selects_shl⟩, fun x s => ?shr, fun x s => ?shl⟩
  case shr =>
    exact next_setRegFlag s x _ _ BitVec.toNat (BitVec.toNat_ushiftRight ..) (toNat_flagByte_lowBit (s.reg x))
  case shl =>
    exact next_setRegFlag s x _ _ BitVec.toNat (toNat_shiftLeft_one (s.reg x)) (toNat_flagByte_highBit (s.reg x))

end Sys2Proof.Machine
end

section
/-! PROOFS. The index register and memory (44_index_memory.md): the writers of `I`, the stores at `I`, and the block
load. -/

namespace Sys2Proof.Machine

/-! ### The words that select an index or memory instruction (R68, R69) -/

/-- In family F the key byte alone decides (R68). -/
theorem selects_of_keyF {p : Word} {f : Word → Instr} (hp : p.extractLsb' 12 4 = 0xF#4)
    (h : ∀ w, fieldNN w = p.extractLsb' 0 8 → decodeFamilyF w = f w) : Selects 0xF0FF#16 p f := by
  intro w hw
  obtain ⟨hF, hNN⟩ := fields_of_mask_byte hw
  exact (decodeWord_familyF (hF.trans hp)).trans (h w hNN)

theorem selects_ldI : Selects 0xF000#16 0xA000#16 (fun w => .ldI (fieldNNN w)) :=
  selects_of_family fun w (hF : fieldF w = 0xA#4) => by simp only [decodeWord, hF]

theorem selects_addI : Selects 0xF0FF#16 0xF01E#16 (fun w => .addI (fieldX w)) :=
  selects_of_keyF rfl fun w (hNN : fieldNN w = 0x1E#8) => by simp only [decodeFamilyF, hNN]

theorem selects_ldF : Selects 0xF0FF#16 0xF029#16 (fun w => .ldF (fieldX w)) :=
  selects_of_keyF rfl fun w (hNN : fieldNN w = 0x29#8) => by simp only [decodeFamilyF, hNN]

theorem selects_ldB : Selects 0xF0FF#16 0xF033#16 (fun w => .ldB (fieldX w)) :=
  selects_of_keyF rfl fun w (hNN : fieldNN w = 0x33#8) => by simp only [decodeFamilyF, hNN]

theorem selects_ldMemVx : Selects 0xF0FF#16 0xF055#16 (fun w => .ldMemVx (fieldX w)) :=
  selects_of_keyF rfl fun w (hNN : fieldNN w = 0x55#8) => by simp only [decodeFamilyF, hNN]

theorem selects_ldVxMem : Selects 0xF0FF#16 0xF065#16 (fun w => .ldVxMem (fieldX w)) :=
  selects_of_keyF rfl fun w (hNN : fieldNN w = 0x65#8) => by simp only [decodeFamilyF, hNN]

/-! ### The writers of `I` -/

/-- The sum of a word and an extended byte wraps at 16 bits only (R131). -/
theorem toNat_add_zextByte (a : Word) (b : Byte) : (a + zextByte b).toNat = (a.toNat + b.toNat) % 65536 := by
  rw [BitVec.toNat_add, toNat_zextByte]

/-- Settles O28, by the value of the extended address. -/
theorem ldISetsIndex : Obligations.LdISetsIndex := by
  unfold Obligations.LdISetsIndex
  exact ⟨selects_ldI, fun nnn _ => ⟨_, rfl, rfl, fun _ => rfl, toNat_zextAddr nnn⟩⟩

/-- Settles O29: the sum wraps at 16 bits, and no glyph address reaches that far. -/
theorem indexArithmetic : Obligations.IndexArithmetic := by
  unfold Obligations.IndexArithmetic
  refine ⟨⟨selects_addI, selects_ldF⟩, fun x s => ?addI, fun x s => ?ldF⟩
  case addI => exact ⟨_, rfl, rfl, fun _ => rfl, toNat_add_zextByte s.i (s.reg x)⟩
  case ldF => exact ⟨_, rfl, rfl, fun _ => rfl, toNat_glyphAddress (s.reg x)⟩

/-! ### Accesses above memory (R43; the spec's decision D3) -/

/-- An access to a byte above 4095 takes the fault, whatever it would have done. -/
theorem guardRange_faultTaken {base n : Nat} (s : State) (r : Result) (hn : 0 < n) (h : 4096 < base + n) :
    ∃ t, guardRange base n s r = .next t ∧ FaultTaken s t .addressOutOfRange (max base 4096) := by
  rcases guardRange_cases base n s r with ⟨-, -, e⟩ | ⟨hin, -⟩
  · exact ⟨_, e, rfl⟩
  · omega

/-! ### LD B -/

/-- LD B inside memory writes the three digits from `I` on and nothing else. -/
theorem exec_ldB_inside {x : Reg} {s : State} (h : s.i.toNat + 2 ≤ 4095) :
    exec (.ldB x) s = .next { s with mem := Memory.writeBytes s.mem s.i.toNat (decimalDigits (s.reg x)) } := by
  rcases execLdB_cases x s with ⟨hout, -⟩ | ⟨-, e⟩
  · omega
  · exact e

/-- After a store of the digits from address `a` on, the byte at `a + j` is worth digit `j`, which fits a byte. -/
theorem toNat_read_digit (m : Memory) (a : Nat) (b : Byte) {j d : Nat}
    (h : (decimalDigits b)[j]? = some (BitVec.ofNat 8 d)) (hd : d < 256) :
    (Memory.read (Memory.writeBytes m a (decimalDigits b)) (a + j)).toNat = d := by
  obtain ⟨hj, hdigit⟩ := List.getElem?_eq_some_iff.1 h
  rw [Memory.read_writeBytes_inside m a _ j hj, hdigit, BitVec.toNat_ofNat, Nat.mod_eq_of_lt hd]

/-- Settles O30, by whether the three bytes at `I` lie inside memory: a store of the digits, or the fault. -/
theorem ldBStoresDigits : Obligations.LdBStoresDigits := by
  unfold Obligations.LdBStoresDigits
  refine ⟨selects_ldB, fun x s h => ?inside, fun x s h => ?above⟩
  case inside =>
    refine ⟨_, exec_ldB_inside h, rfl, ?hundreds, ?tens, ?ones, ?outside⟩
    case hundreds => exact toNat_read_digit s.mem _ (s.reg x) (j := 0) rfl (by omega)
    case tens => exact toNat_read_digit s.mem _ (s.reg x) (j := 1) rfl (by omega)
    case ones => exact toNat_read_digit s.mem _ (s.reg x) (j := 2) rfl (by omega)
    case outside => exact Memory.read_writeBytes_outside s.mem _ (decimalDigits (s.reg x))
  case above => exact guardRange_faultTaken (n := 3) s _ (by omega) (by omega)

/-! ### Block transfers (R134, R135; `I` is kept, the spec's decision D11) -/

/-- Settles O31, by whether the block lies inside memory: a store of V0 to VX, or the fault. -/
theorem blockStoreWritesRegisters : Obligations.BlockStoreWritesRegisters := by
  unfold Obligations.BlockStoreWritesRegisters
  refine ⟨selects_ldMemVx, fun x s h => ?inside, fun x s h => ?above⟩
  case inside =>
    refine ⟨_, exec_ldMemVx_inside h, rfl, fun k hk => read_writeBytes_blockRegs _ _ s hk, fun a ha => ?_⟩
    rw [← length_blockRegs s x] at ha
    exact Memory.read_writeBytes_outside _ _ _ a ha
  case above =>
    have hlen := length_blockRegs s x
    exact guardRange_faultTaken (n := (blockRegs s x).length) s _ (by omega) (by omega)

/-- A block load inside memory writes the loaded registers and nothing else. -/
theorem exec_ldVxMem_inside {x : Reg} {s : State} (h : s.i.toNat + x.val ≤ 4095) :
    exec (.ldVxMem x) s = .next { s with v := loadedRegs s x } := by
  rcases execLdVxMem_cases x s with ⟨hout, -⟩ | ⟨-, e⟩
  · omega
  · exact e

/-- Settles O32, by whether the block lies inside memory: a load of V0 to VX, or the fault. -/
theorem blockLoadReadsMemory : Obligations.BlockLoadReadsMemory := by
  unfold Obligations.BlockLoadReadsMemory
  refine ⟨selects_ldVxMem, fun x s h => ?inside, fun x s h => ?above⟩
  case inside =>
    exact ⟨_, exec_ldVxMem_inside h, rfl, fun _ => rfl, fun k hk => (reg_loadedRegs s x k).trans (if_pos hk),
      fun k hk => (reg_loadedRegs s x k).trans (if_neg (Fin.not_le.2 hk))⟩
  case above => exact guardRange_faultTaken (n := x.val + 1) s _ (by omega) (by omega)

theorem MemoryOnly.i_eq {s t : State} (h : MemoryOnly s t) : t.i = s.i := by
  rw [MemoryOnly] at h
  rw [h]

/-- Settles O33, from the block store and the block load: the store keeps `I`, so the load reads what was stored. -/
theorem blockStoreThenLoadRestores : Obligations.BlockStoreThenLoadRestores := by
  unfold Obligations.BlockStoreThenLoadRestores
  intro x s between h
  obtain ⟨-, store, -⟩ := blockStoreWritesRegisters
  obtain ⟨-, load, -⟩ := blockLoadReadsMemory
  obtain ⟨t, ht, hmem, hstored, -⟩ := store x s h
  rw [← hmem.i_eq] at h hstored
  obtain ⟨u, hu, -, -, hloaded, hkept⟩ := load x { t with v := between } h
  exact ⟨t, u, ht, hu, fun k hk => (hloaded k hk).trans (hstored k hk), hkept⟩

end Sys2Proof.Machine
end

section
/-! PROOFS. The random byte (45_random.md): what RND does with it, and that no other instruction reads it. -/

namespace Sys2Proof.Machine

/-! ### RND -/

theorem selects_rnd : Selects 0xF000#16 0xC000#16 (fun w => .rnd (fieldX w) (fieldNN w)) :=
  selects_of_family fun w (hF : fieldF w = 0xC#4) => by simp only [decodeWord, hF]

/-- Settles O35: the bits of the masked byte, written into `V[X]` alone, and the draw counted. -/
theorem rndMasksDrawnByte : Obligations.RndMasksDrawnByte := by
  unfold Obligations.RndMasksDrawnByte
  refine ⟨selects_rnd, fun x nn s => ?_⟩
  have hreg := s.reg_setReg_same x (s.drawnByte &&& nn)
  exact ⟨_, rfl, rfl, fun _ => rfl, keepsRegsBut_setReg s x _,
    fun j => (congrArg (·.getLsbD j) hreg).trans BitVec.getLsbD_and⟩

/-! ### The other instructions (R141): the count of draws decides no branch and is carried along both ways -/

section
variable {s : State} {d : Nat}

theorem withDraws_guardRange {base n : Nat} {r r' : Result} (h : r' = withDraws d r) :
    guardRange base n { s with draws := d } r' = withDraws d (guardRange base n s r) := by
  rw [h]
  exact (apply_ite (withDraws d) (outOfRange base n = true) (raise _ _ s) r).symm

theorem withDraws_skipIf {c : Bool} : skipIf c { s with draws := d } = withDraws d (skipIf c s) := by
  cases c <;> rfl

theorem withDraws_skipOnKey {x : Reg} {down : Bool} :
    skipOnKey x down { s with draws := d } = withDraws d (skipOnKey x down s) := by
  have hx : State.reg { s with draws := d } x = s.reg x := rfl
  simp only [skipOnKey, hx]
  cases keyIndex (s.reg x) with
  | some k => exact withDraws_skipIf
  | none => rfl

theorem withDraws_ret : execRet { s with draws := d } = withDraws d (execRet s) := by
  simp only [execRet, apply_ite (withDraws d), apply_dite (withDraws d)]
  rfl

theorem withDraws_call {nnn : BitVec 12} :
    execCall nnn { s with draws := d } = withDraws d (execCall nnn s) := by
  simp only [execCall, apply_ite (withDraws d), apply_dite (withDraws d)]
  rfl

theorem withDraws_ldVxK {x : Reg} : execLdVxK x { s with draws := d } = withDraws d (execLdVxK x s) := by
  have hkeys : State.leastPressed { s with draws := d } = s.leastPressed := rfl
  simp only [execLdVxK, hkeys]
  cases s.leastPressed <;> rfl

end

/-- Settles O44, by cases on the instruction: only the branching ones need their lemma. -/
theorem onlyRndReadsRandomByte : Obligations.OnlyRndReadsRandomByte := by
  unfold Obligations.OnlyRndReadsRandomByte
  intro i s d hi
  cases i with
  | rnd x nn => exact absurd rfl (hi x nn)
  | ret => exact withDraws_ret
  | call nnn => exact withDraws_call
  | ldVxK x => exact withDraws_ldVxK
  | seByte x nn | sneByte x nn | seReg x y | sneReg x y => exact withDraws_skipIf
  | skp x | sknp x => exact withDraws_skipOnKey
  | ldB x | ldMemVx x | ldVxMem x | drw x y n => exact withDraws_guardRange rfl
  | cls | jp nnn | jpV0 nnn | ldByte x nn | addByte x nn | ldReg x y | orReg x y | andReg x y | xorReg x y
  | addReg x y | sub x y | shr x | subn x y | shl x | ldI nnn | ldVxDt x | ldDtVx x | ldStVx x | addI x | ldF x
  | nop word => rfl

end Sys2Proof.Machine
end

section
/-! PROOFS. Draw (46_draw.md): DRW is the XOR of the sprite into the display, and drawing twice undoes itself. -/

namespace Sys2Proof.Machine

theorem selects_drw : Selects 0xF000#16 0xD000#16 (fun w => .drw (fieldX w) (fieldY w) (fieldN w)) :=
  selects_of_family fun w (hF : fieldF w = 0xD#4) => by simp only [decodeWord, hF]

/-! ### What a draw does to the pixels under the sprite (R145, R146) -/

theorem eq_spriteX_iff {sx : Byte} {col : Nat} {px : Fin 64} :
    px = spriteX sx col ↔ px.val = (sx.toNat + col) % 64 := Fin.ext_iff

theorem eq_spriteY_iff {sy : Byte} {row : Nat} {py : Fin 32} :
    py = spriteY sy row ↔ py.val = (sy.toNat + row) % 32 := Fin.ext_iff

section
variable {s : State} {x y : Reg} {n : BitVec 4} {py : Fin 32} {px : Fin 64}

/-- The bytes the loop draws lie on the pixels that the sprite at `I` covers. -/
theorem spriteLies_readBytes_iff :
    spriteLies (s.reg x) (s.reg y) (Memory.readBytes s.mem s.i.toNat n.toNat) 0 py px ↔ spriteCovers s x y n py px := by
  simp only [spriteLies, rowCovers, Memory.length_readBytes, Memory.getElem_readBytes, Nat.zero_add,
    eq_spriteY_iff, eq_spriteX_iff, spriteBit]
  constructor
  · rintro ⟨row, hrow, hy, col, hcol, hx, hbit⟩
    exact ⟨row, col, hrow, hcol, hy, hx, hbit⟩
  · rintro ⟨row, col, hrow, hcol, hy, hx, hbit⟩
    exact ⟨row, hrow, hy, col, hcol, hx, hbit⟩

variable (s x y n) in
/-- The draw loop at `I`: at most 15 rows, so that no pixel is drawn twice. -/
theorem drawn_spec :
    (∀ py px, spriteCovers s x y n py px → pixel (drawn s x y n).1 py px = !pixel s.disp py px) ∧
    (∀ py px, ¬ spriteCovers s x y n py px → pixel (drawn s x y n).1 py px = pixel s.disp py px) ∧
    ((drawn s x y n).2 = true ↔ ∃ py px, spriteCovers s x y n py px ∧ pixel s.disp py px = true) := by
  have hrows : 0 + (Memory.readBytes s.mem s.i.toNat n.toNat).length ≤ 32 := by
    rw [Memory.length_readBytes]
    omega
  have hloop := drawSprite_spec (s.reg x) (s.reg y) _ 0 (s.disp, false) hrows
  simp only [spriteLies_readBytes_iff, Bool.false_eq_true, false_or] at hloop
  exact hloop

/-- Which pixels a sprite covers depends on its two coordinates and on the bytes at `I` alone. -/
theorem spriteCovers_congr {t : State} (hx : t.reg x = s.reg x) (hy : t.reg y = s.reg y) (hi : t.i = s.i)
    (hmem : SameMemory s t) : spriteCovers t x y n py px ↔ spriteCovers s x y n py px := by
  simp only [spriteCovers, hx, hy, hi, hmem _]

/-- A draw inside memory writes the drawn display and VF and nothing else. -/
theorem exec_drw_inside (h : n.toNat = 0 ∨ s.i.toNat + n.toNat ≤ 4096) :
    exec (.drw x y n) s =
      .next { s.setReg vf (flagByte (drawn s x y n).2) with disp := (drawn s x y n).1 } := by
  rcases execDrw_cases x y n s with ⟨hn, hout, -⟩ | ⟨-, e⟩
  · omega
  · exact e

end

/-! ### The collision flag -/

theorem flagByte_of_iff {c : Bool} {p : Prop} (h : c = true ↔ p) :
    (p → flagByte c = 0x01#8) ∧ (¬ p → flagByte c = 0x00#8) :=
  ⟨fun hp => if_pos (h.2 hp), fun hp => if_neg (hp ∘ h.1)⟩

/-- Settles O36, by whether the sprite's bytes lie inside memory: the draw loop's pixels and flag, or the fault. -/
theorem drwXorsSprite : Obligations.DrwXorsSprite := by
  unfold Obligations.DrwXorsSprite
  refine ⟨selects_drw, fun x y n s h => ?inside, fun x y n s hn h => ?above⟩
  case inside =>
    obtain ⟨hcovered, huncovered, hflag⟩ := drawn_spec s x y n
    have hvf := s.reg_setReg_same vf (flagByte (drawn s x y n).2)
    obtain ⟨hlit, hunlit⟩ := flagByte_of_iff hflag
    exact ⟨_, exec_drw_inside h, rfl, fun _ => rfl, keepsRegsBut_setReg s vf _, hcovered, huncovered,
      fun hp => hvf.trans (hlit hp), fun hp => hvf.trans (hunlit hp)⟩
  case above => exact guardRange_faultTaken s _ hn h

/-- Settles O37, from O36 twice: X and Y are kept, so the second draw covers the same pixels, and each of them is lit
before it exactly when it was unlit before the first. -/
theorem drwIsSelfInverse : Obligations.DrwIsSelfInverse := by
  unfold Obligations.DrwIsSelfInverse
  intro x y n s hx hy h
  obtain ⟨-, draw, -⟩ := drwXorsSprite
  obtain ⟨t, ht, hframe, hmem, hregs, hcovered, huncovered, -, -⟩ := draw x y n s h
  have hi : t.i = s.i := by rw [hframe]
  have hcovers : ∀ py px, spriteCovers t x y n py px ↔ spriteCovers s x y n py px := fun _ _ =>
    spriteCovers_congr (hregs x (by simpa using hx)) (hregs y (by simpa using hy)) hi hmem
  obtain ⟨u, hu, -, -, -, hcovered', huncovered', hlit, hunlit⟩ := draw x y n t (hi ▸ h)
  simp only [hcovers] at hcovered' huncovered' hlit hunlit
  have hcollides : (∃ py px, spriteCovers s x y n py px ∧ pixel t.disp py px = true) ↔
      ∃ py px, spriteCovers s x y n py px ∧ pixel s.disp py px = false :=
    exists₂_congr fun py px => and_congr_right fun hc => by rw [hcovered py px hc, Bool.not_eq_true']
  rw [hcollides] at hlit hunlit
  refine ⟨t, u, ht, hu, display_ext fun py px => ?_, hlit, hunlit⟩
  by_cases hc : spriteCovers s x y n py px
  · rw [hcovered' py px hc, hcovered py px hc, Bool.not_not]
  · rw [huncovered' py px hc, huncovered py px hc]

end Sys2Proof.Machine
end

section
/-! PROOFS. Keypad, timers and exceptions (47_input.md, 48_timers.md, 60_exceptions.md): LD Vx,K, the timer moves, which
instructions fault and with what record, and the host's operations. -/

namespace Sys2Proof.Machine

/-! ### The words that select LD Vx,K and the timer moves (R68) -/

theorem selects_ldVxK : Selects 0xF0FF#16 0xF00A#16 (fun w => .ldVxK (fieldX w)) :=
  selects_of_keyF rfl fun w (hNN : fieldNN w = 0x0A#8) => by simp only [decodeFamilyF, hNN]

theorem selects_ldVxDt : Selects 0xF0FF#16 0xF007#16 (fun w => .ldVxDt (fieldX w)) :=
  selects_of_keyF rfl fun w (hNN : fieldNN w = 0x07#8) => by simp only [decodeFamilyF, hNN]

theorem selects_ldDtVx : Selects 0xF0FF#16 0xF015#16 (fun w => .ldDtVx (fieldX w)) :=
  selects_of_keyF rfl fun w (hNN : fieldNN w = 0x15#8) => by simp only [decodeFamilyF, hNN]

theorem selects_ldStVx : Selects 0xF0FF#16 0xF018#16 (fun w => .ldStVx (fieldX w)) :=
  selects_of_keyF rfl fun w (hNN : fieldNN w = 0x18#8) => by simp only [decodeFamilyF, hNN]

/-! ### The cycle of an instruction that completes -/

/-- A cycle whose instruction raises nothing is that instruction, then the tick (R83, R84). -/
theorem step_of_exec {s u : State} {i : Instr} (hf : s.fault = none) (hp : s.pc.toNat ≤ 4094)
    (hdec : decodeWord (fetchedWord s) = i) (hi : exec i s.advance = .next u) (hu : u.fault = none) :
    step s = .next (tick u) := by
  rw [step_running hf hp, hdec, hi, finishCycle_next_running hu]

/-! ### LD Vx,K (R150, R151) -/

theorem State.advance_pc0 (s : State) : s.advance.pc0 = s.pc := BitVec.add_sub_cancel ..

theorem exec_ldVxK_of_no_key {s : State} (x : Reg) (h : ∀ k, s.pressed k = false) :
    exec (.ldVxK x) s = .next { s with pc := s.pc0 } := by
  change execLdVxK x s = _
  rw [execLdVxK, State.leastPressed_eq_none.2 h]

theorem exec_ldVxK_of_least_key {s : State} (x : Reg) {k : Fin 16} (hk : s.pressed k = true)
    (hlt : ∀ j, j < k → s.pressed j = false) :
    exec (.ldVxK x) s = .next (s.setReg x (BitVec.ofNat 8 k.val)) := by
  change execLdVxK x s = _
  rw [execLdVxK, State.leastPressed_eq_some.2 ⟨hk, hlt⟩]

/-- With no key down the rewind undoes the advance, so the instruction alone changes nothing. -/
theorem exec_ldVxK_advance_of_no_key {s : State} (x : Reg) (h : ∀ k, s.pressed k = false) :
    exec (.ldVxK x) s.advance = .next s := by
  rw [exec_ldVxK_of_no_key (s := s.advance) x h, State.advance_pc0]
  rfl

/-- Settles O38, by the least key that is down: the rewind, that key's number, and the cycle that only ticks. -/
theorem ldKPollsKeypad : Obligations.LdKPollsKeypad := by
  unfold Obligations.LdKPollsKeypad
  refine ⟨selects_ldVxK, fun x s hno => ?noKey, fun x s k hk hlt => ?leastKey, fun x s hf hp hdec hno => ?cycle⟩
  case noKey => exact ⟨_, exec_ldVxK_of_no_key x hno, rfl, fun _ => rfl, rfl⟩
  case leastKey =>
    have hbyte : (BitVec.ofNat 8 k.val).toNat = k.val := (BitVec.toNat_ofNat ..).trans (Nat.mod_eq_of_lt (by omega))
    rw [exec_ldVxK_of_least_key x hk hlt]
    exact next_setReg s x _ BitVec.toNat hbyte
  case cycle => rw [step_of_exec hf hp hdec (exec_ldVxK_advance_of_no_key x hno) hf, tick_eq]

/-! ### The timer moves (R155 to R157) -/

/-- Settles O39: the moves by their equations, and the cycle's end by the tick of the timer just written or read. -/
theorem timerMoves : Obligations.TimerMoves := by
  unfold Obligations.TimerMoves
  refine ⟨⟨selects_ldVxDt, selects_ldDtVx, selects_ldStVx⟩,
    fun x s => ⟨next_setReg s x s.dt id rfl, rfl, rfl⟩, fun x s hf hp hdec => ?dt, fun x s hf hp hdec => ?st,
    fun x s hf hp hdec => ?vx⟩
  case dt => exact ⟨_, step_of_exec hf hp hdec rfl hf, toNat_countDown (s.reg x)⟩
  case st => exact ⟨_, step_of_exec hf hp hdec rfl hf, toNat_countDown (s.reg x)⟩
  case vx =>
    have hreg : (s.advance.setReg x s.dt).reg x = s.dt := State.reg_setReg_same ..
    refine ⟨_, step_of_exec hf hp hdec rfl hf, hreg, ?_⟩
    rw [tick_reg, State.advance_dt, hreg]
    exact toNat_countDown s.dt

/-! ### The instructions that never fault (R162) -/

/-- What cannot fault answers a next state; only LD Vx,K and a DRW of no rows have a branch to look at. -/
theorem exec_completes {i : Instr} (s : State) (hm : mayFault i = false) : ∃ t, exec i s = .next t := by
  cases i with
  | ret | call nnn | skp x | sknp x | ldB x | ldMemVx x | ldVxMem x => cases hm
  | drw x y n =>
    have hn : n = 0#4 := not_ne_iff.1 (of_decide_eq_false hm)
    exact ⟨_, exec_drw_inside (.inl (hn ▸ rfl))⟩
  | ldVxK x =>
    rcases execLdVxK_cases x s with ⟨-, e⟩ | ⟨_, -, -, e⟩
    · exact ⟨_, e⟩
    · exact ⟨_, e⟩
  | _ => exact ⟨_, rfl⟩

/-- Settles O42: the instruction completes, and its frame keeps the latch. -/
theorem mostInstructionsNeverFault : Obligations.MostInstructionsNeverFault := by
  unfold Obligations.MostInstructionsNeverFault
  intro i s hm
  obtain ⟨t, ht⟩ := exec_completes s hm
  exact ⟨t, ht, (exec_frame ht).fault hm⟩

/-! ### The fault records (R161)

Where the outcome on a running state is a raised fault, its cause, its condition and its value are the table's. -/

section
variable {s : State} {c : Cause} {info : Nat}

/-- A state with no fault latched is not what a raised fault answers. -/
theorem next_ne_raise {u : State} (hu : u.fault = none) : (.next u : Result) ≠ raise c info s := by
  intro h
  cases h
  cases hu

theorem guardRange_eq_raise {base n : Nat} {u : State} (h : guardRange base n s (.next u) = raise c info s)
    (hu : u.fault = none) :
    c = .addressOutOfRange ∧ 0 < n ∧ 4095 < base + (n - 1) ∧ info = max base 4096 := by
  rcases guardRange_cases base n s (.next u) with ⟨h0, hout, e⟩ | ⟨-, e⟩ <;> rw [e] at h
  · cases h
    exact ⟨rfl, h0, by omega, rfl⟩
  · exact absurd h (next_ne_raise hu)

variable (hf : s.fault = none)
include hf

theorem execRet_eq_raise (h : execRet s = raise c info s) : c = .stackUnderflow ∧ s.sp = 0#8 ∧ info = 0 := by
  rcases execRet_cases s with ⟨h0, e⟩ | ⟨_, -, -, e⟩ | ⟨-, e⟩ <;> rw [e] at h
  · cases h
    exact ⟨rfl, h0, rfl⟩
  · exact absurd h (next_ne_raise hf)
  · cases h

theorem execCall_eq_raise {nnn : BitVec 12} (h : execCall nnn s = raise c info s) :
    c = .stackOverflow ∧ s.sp = 16#8 ∧ info = nnn.toNat := by
  rcases execCall_cases nnn s with ⟨h16, e⟩ | ⟨_, e⟩ | ⟨-, e⟩ <;> rw [e] at h
  · cases h
    exact ⟨rfl, h16, rfl⟩
  · exact absurd h (next_ne_raise hf)
  · cases h

theorem skipOnKey_eq_raise {x : Reg} {down : Bool} (h : skipOnKey x down s = raise c info s) :
    c = .keyIndexOutOfRange ∧ 15 < (s.reg x).toNat ∧ info = (s.reg x).toNat := by
  rcases skipOnKey_cases x down s with ⟨h15, e⟩ | ⟨_, -, -, e⟩ | ⟨_, -, -, e⟩ <;> rw [e] at h
  · cases h
    exact ⟨rfl, h15, rfl⟩
  · exact absurd h (next_ne_raise hf)
  · exact absurd h (next_ne_raise hf)

theorem mayFault_of_exec_eq_raise {i : Instr} (h : exec i s = raise c info s) : mayFault i = true := by
  refine Bool.of_not_eq_false fun hm => ?_
  have hkeep : (takeFault s.pc0 c info s).fault = s.fault := (exec_frame h).fault hm
  exact absurd (hkeep.trans hf) (Option.some_ne_none _)

end

/-- Settles O43: a latched fault was raised on `s`, by one of the instructions that can fault; those that access memory
at `I` share the table's first row. -/
theorem faultCausesAreTheTable : Obligations.FaultCausesAreTheTable := by
  unfold Obligations.FaultCausesAreTheTable
  intro i s t r hf hst hr
  obtain ⟨c, info, rfl⟩ := exec_fault_eq_takeFault hf hst (hr ▸ Option.some_ne_none r)
  cases hr
  have h : exec i s = raise c info s := hst
  have hm := mayFault_of_exec_eq_raise hf h
  refine ⟨rfl, ?_⟩
  cases i with
  | ret => exact .inr (.inr (.inl ⟨rfl, execRet_eq_raise hf h⟩))
  | call nnn => exact .inr (.inl ⟨nnn, rfl, execCall_eq_raise hf h⟩)
  | skp x => exact .inr (.inr (.inr ⟨x, .inl rfl, skipOnKey_eq_raise hf h⟩))
  | sknp x => exact .inr (.inr (.inr ⟨x, .inr rfl, skipOnKey_eq_raise hf h⟩))
  | ldB x | ldVxMem x | drw x y n => exact .inl (guardRange_eq_raise h hf)
  | ldMemVx x =>
    have haccess := guardRange_eq_raise h hf
    rw [length_blockRegs] at haccess
    exact .inl haccess
  | _ => cases hm

/-! ### The host's operations (R170, R171) -/

/-- Settles O47, operation by operation. -/
theorem hostKeepsMachineInvariant : Obligations.HostKeepsMachineInvariant := by
  unfold Obligations.HostKeepsMachineInvariant
  exact fun s h => ⟨fun bytes => afterLoad_inv bytes h, fun k b => hostKeyWrite_inv k b h, hostReset_inv s⟩

theorem hostKeyWrite_pressed_other {k j : Fin 16} (b : Bool) (s : State) (h : j ≠ k) :
    (hostKeyWrite k b s).pressed j = s.pressed j :=
  Vector.getElem_set_ne k.isLt j.isLt fun e => h (Fin.ext e.symm)

/-- No case of a step writes the keypad: the instruction keeps it by its frame (R28). -/
theorem step_keeps_key {s t : State} (h : step s = .next t) : t.key = s.key := by
  rcases step_cases h with ⟨-, rfl⟩ | ⟨-, -, rfl⟩ | ⟨-, -, u, hu, ⟨-, rfl⟩ | ⟨-, rfl⟩⟩
  · rfl
  · rfl
  · exact (exec_frame hu).key
  · exact (exec_frame hu).key

/-- Settles O52: a write to one key keeps the others, and a step keeps them all. -/
theorem keypadIsWrittenByHostOnly : Obligations.KeypadIsWrittenByHostOnly := by
  unfold Obligations.KeypadIsWrittenByHostOnly
  exact ⟨fun k b s => ⟨rfl, hostKeyWrite_pressed_same k b s, fun _ hj => hostKeyWrite_pressed_other b s hj⟩,
    fun _ _ => step_keeps_key⟩

end Sys2Proof.Machine
end
